-- ==== Sys2Proof/Word.lean ====
section
/-! DEFINITION. The machine's number types: 8-bit bytes, 16-bit words and the 4-bit register fields of an
instruction word (00_scope.md R8; 30_encoding.md R91). -/

namespace Sys2Proof

/-- A byte: the unit of memory, of an opcode, an immediate, an offset and a signal id (00_scope.md R8). -/
abbrev Byte := BitVec 8

/-- A word: the contents of a register and the length of an instruction (00_scope.md R6 and R8). -/
abbrev Word := BitVec 16

/-- A register field of an instruction word (30_encoding.md R96). -/
abbrev Nibble := BitVec 4

end Sys2Proof
end

