-- ==== Sys2Proof/Machine/Memory.lean ====
section
/-! DEFINITION. The byte array behind the memory port, as a list of (address, byte) cells in one canonical form:
addresses strictly rising and no cell equal to 0x00, which is what an unlisted address reads as
(20_memory.md R63: a byte that nothing has written since reset reads 0x00). Bounds are checked above this layer,
in Machine/Ops.lean. -/

namespace Sys2Proof

/-- Memory contents: the bytes that differ from 0x00, by address. -/
abbrev Memory := List Host.Cell

/-- The canonical form: strictly rising addresses and no listed 0x00. -/
abbrev Memory.wf (m : Memory) : Prop :=
  m.Pairwise (fun x y => x.1 < y.1) ∧ ∀ e ∈ m, e.2 ≠ 0

/-- What an address reads as when nothing has written it since reset (20_memory.md R63). -/
def Memory.unlisted : Byte := 0

/-- The byte at an address (20_memory.md R63). -/
def Memory.read : Memory → Nat → Byte
  | [], _ => Memory.unlisted
  | (k, v) :: m, a => if a = k then v else Memory.read m a

/-- Put a cell in front of a canonical list, unless it holds what an unlisted address reads as. -/
def Memory.consCell (a : Nat) (b : Byte) (m : Memory) : Memory :=
  if b = Memory.unlisted then m else (a, b) :: m

/-- Store one byte, keeping the canonical form (20_memory.md R62 and R63). -/
def Memory.write : Memory → Nat → Byte → Memory
  | [], a, b => Memory.consCell a b []
  | (k, v) :: m, a, b =>
    if a < k then Memory.consCell a b ((k, v) :: m)
    else if a = k then Memory.consCell a b m
    else (k, v) :: Memory.write m a b

end Sys2Proof
end

