-- ==== Sys2Proof/Syntax.lean ====
section
/-! DEFINITION. The names of the instruction set: registers, flags, mnemonics, operand shapes, the 22
instructions (30_encoding.md R100), and the six faults of a step (60_exceptions.md R231). -/

namespace Sys2Proof

/-- The eight registers of the register file, in the spec's order (10_state.md R30 and R31). -/
inductive Reg where
  | a | b | c | d | sp | pc | bp | fl
  deriving DecidableEq, Repr

/-- All registers, in the order of 10_state.md R31. -/
def Reg.all : List Reg := [.a, .b, .c, .d, .sp, .pc, .bp, .fl]

/-- The three flags held in FL (10_state.md R38). -/
inductive Flag where
  | compare | negative | overflow
  deriving DecidableEq, Repr

/-- The mnemonics of the closed instruction list (30_encoding.md R100). -/
inductive Mnemonic where
  | nop | push | pop | pushReg | mov | add | sub | mul | div | shl | shr
  | and | or | xor | not | cmp | jmp | je | jne | load | store | signal
  deriving DecidableEq, Repr

/-- All mnemonics, in the order of 30_encoding.md R100. -/
def Mnemonic.all : List Mnemonic :=
  [.nop, .push, .pop, .pushReg, .mov, .add, .sub, .mul, .div, .shl, .shr] ++
  [.and, .or, .xor, .not, .cmp, .jmp, .je, .jne, .load, .store, .signal]

/-- The five operand shapes (30_encoding.md R92 to R97). -/
inductive Shape where
  | none | imm8 | reg | reg2 | off8
  deriving DecidableEq, Repr

/-- The shape column of the opcode table (30_encoding.md R100). -/
def Mnemonic.shape : Mnemonic → Shape
  | .nop => .none
  | .push | .signal => .imm8
  | .pop | .pushReg | .not => .reg
  | .jmp | .je | .jne => .off8
  | .mov | .add | .sub | .mul | .div | .shl | .shr | .and | .or | .xor | .cmp | .load | .store => .reg2

/-- One constructor per row of the opcode table. Two-register operands stand in the order in which the spec
writes them (30_encoding.md R101): destination then source; for `cmp` left then right; for `store` the value
register then the address register. A branch offset is kept as the raw byte (R102). -/
inductive Instr where
  | nop
  | push (imm : Byte)
  | pop (r : Reg)
  | pushReg (r : Reg)
  | mov (dst src : Reg)
  | add (dst src : Reg)
  | sub (dst src : Reg)
  | mul (dst src : Reg)
  | div (dst src : Reg)
  | shl (dst src : Reg)
  | shr (dst src : Reg)
  | and (dst src : Reg)
  | or (dst src : Reg)
  | xor (dst src : Reg)
  | not (r : Reg)
  | cmp (left right : Reg)
  | jmp (off : Byte)
  | je (off : Byte)
  | jne (off : Byte)
  | load (dst addr : Reg)
  | store (value addr : Reg)
  | signal (id : Byte)
  deriving DecidableEq, Repr

/-- The operands of an instruction, by shape (30_encoding.md R98). -/
inductive Operands where
  | none
  | imm8 (imm : Byte)
  | reg (first : Reg)
  | reg2 (first second : Reg)
  | off8 (off : Byte)
  deriving DecidableEq, Repr

/-- The mnemonic of an instruction. -/
def Instr.mnemonic : Instr → Mnemonic
  | .nop => .nop
  | .push _ => .push
  | .pop _ => .pop
  | .pushReg _ => .pushReg
  | .mov _ _ => .mov
  | .add _ _ => .add
  | .sub _ _ => .sub
  | .mul _ _ => .mul
  | .div _ _ => .div
  | .shl _ _ => .shl
  | .shr _ _ => .shr
  | .and _ _ => .and
  | .or _ _ => .or
  | .xor _ _ => .xor
  | .not _ => .not
  | .cmp _ _ => .cmp
  | .jmp _ => .jmp
  | .je _ => .je
  | .jne _ => .jne
  | .load _ _ => .load
  | .store _ _ => .store
  | .signal _ => .signal

/-- The operands of an instruction, first and second as 30_encoding.md R101 orders them. -/
def Instr.operands : Instr → Operands
  | .nop => .none
  | .push imm => .imm8 imm
  | .pop r => .reg r
  | .pushReg r => .reg r
  | .mov x y => .reg2 x y
  | .add x y => .reg2 x y
  | .sub x y => .reg2 x y
  | .mul x y => .reg2 x y
  | .div x y => .reg2 x y
  | .shl x y => .reg2 x y
  | .shr x y => .reg2 x y
  | .and x y => .reg2 x y
  | .or x y => .reg2 x y
  | .xor x y => .reg2 x y
  | .not r => .reg r
  | .cmp x y => .reg2 x y
  | .jmp off => .off8 off
  | .je off => .off8 off
  | .jne off => .off8 off
  | .load x y => .reg2 x y
  | .store x y => .reg2 x y
  | .signal id => .imm8 id

/-- The faults a step can raise, each with its information word (60_exceptions.md R231). -/
inductive CoreFault where
  /-- A memory transaction outside `0 .. MEM_SIZE - 1`; `addr` is the first such byte address. -/
  | outOfBounds (addr : Nat)
  /-- The low byte of the fetched word is not an opcode. -/
  | unknownOpcode (byte : Byte)
  /-- A register field that the shape uses names no register. -/
  | invalidRegister (nibble : Nibble)
  /-- `Signal id` with no handler registered for `id`. -/
  | unknownSignal (id : Byte)
  /-- `Pop` with SP below 2. -/
  | stackUnderflow
  /-- `Div` with a zero divisor. -/
  | divisionByZero
  deriving DecidableEq, Repr

end Sys2Proof
end

