-- ==== Sys2Proof/Machine/RegFile.lean ====
section
/-! DEFINITION. One value per register: the register file (10_state.md R30) and the register numbering are both
tables of this form. -/

namespace Sys2Proof

/-- One value of type `α` for each of the eight registers. -/
structure PerReg (α : Type) where
  a : α
  b : α
  c : α
  d : α
  sp : α
  pc : α
  bp : α
  fl : α
  deriving DecidableEq, Repr

/-- The entry of a register. -/
def PerReg.get {α : Type} (t : PerReg α) : Reg → α
  | .a => t.a
  | .b => t.b
  | .c => t.c
  | .d => t.d
  | .sp => t.sp
  | .pc => t.pc
  | .bp => t.bp
  | .fl => t.fl

/-- Replace the entry of one register. -/
def PerReg.set {α : Type} (t : PerReg α) (r : Reg) (v : α) : PerReg α :=
  match r with
  | .a => { t with a := v }
  | .b => { t with b := v }
  | .c => { t with c := v }
  | .d => { t with d := v }
  | .sp => { t with sp := v }
  | .pc => { t with pc := v }
  | .bp => { t with bp := v }
  | .fl => { t with fl := v }

/-- The same value for every register. -/
def PerReg.const {α : Type} (v : α) : PerReg α := ⟨v, v, v, v, v, v, v, v⟩

/-- The register file: eight 16-bit cells, none of them banked or hard-wired (10_state.md R30). -/
abbrev RegFile := PerReg Word

end Sys2Proof
end

