-- ==== Sys2Proof/Config.lean ====
section
/-! DEFINITION. The implementation parameters of 00_scope.md R7, as plain data: the opcode map OPC, the register
numbering REGIDX, the flag positions FLBIT, the memory size MEM_SIZE, the signal table SIGTAB, the numeric
functions NUM and LOAD_BASE; and the free values of the model, what a handler does where nothing is known of it. The defaults of R7 are in
Decode.lean (OPC, REGIDX), Machine/Flags.lean (FLBIT), Machine/Num.lean (NUM) and Machine/Defaults.lean. -/

namespace Sys2Proof

/-- OPC: the opcode byte of each mnemonic (00_scope.md R7; 30_encoding.md R100). -/
structure OpcMap where
  nop : Byte
  push : Byte
  pop : Byte
  pushReg : Byte
  mov : Byte
  add : Byte
  sub : Byte
  mul : Byte
  div : Byte
  shl : Byte
  shr : Byte
  and : Byte
  or : Byte
  xor : Byte
  not : Byte
  cmp : Byte
  jmp : Byte
  je : Byte
  jne : Byte
  load : Byte
  store : Byte
  signal : Byte
  deriving DecidableEq, Repr

/-- The opcode byte of a mnemonic. -/
def OpcMap.get (o : OpcMap) : Mnemonic → Byte
  | .nop => o.nop
  | .push => o.push
  | .pop => o.pop
  | .pushReg => o.pushReg
  | .mov => o.mov
  | .add => o.add
  | .sub => o.sub
  | .mul => o.mul
  | .div => o.div
  | .shl => o.shl
  | .shr => o.shr
  | .and => o.and
  | .or => o.or
  | .xor => o.xor
  | .not => o.not
  | .cmp => o.cmp
  | .jmp => o.jmp
  | .je => o.je
  | .jne => o.jne
  | .load => o.load
  | .store => o.store
  | .signal => o.signal

/-- REGIDX: the number of each register in an instruction's register field (00_scope.md R7; 10_state.md R31). -/
abbrev RegMap := PerReg Nibble

/-- The two maps that fix the instruction encoding. -/
structure Encoding where
  opc : OpcMap
  regidx : RegMap
  deriving DecidableEq, Repr

/-- FLBIT: the bit of FL that holds each flag (00_scope.md R7; 10_state.md R38). -/
structure FlagBits where
  compare : Fin 16
  negative : Fin 16
  overflow : Fin 16
  deriving DecidableEq, Repr

/-- The position of a flag in FL. -/
def FlagBits.get (b : FlagBits) : Flag → Nat
  | .compare => b.compare
  | .negative => b.negative
  | .overflow => b.overflow

/-- A number that a handler computes from the state it sees (46_signal.md R222). -/
inductive HostVal where
  /-- A number of the handler's own. -/
  | lit (n : Nat)
  /-- The contents of a register. -/
  | reg (r : Reg)
  /-- The byte at an address, a bounds-checked read. -/
  | byte (addr : HostVal)
  | add (x y : HostVal)
  | mul (x y : HostVal)
  deriving DecidableEq, Repr

/-- What a handler can ask of the state it sees (46_signal.md R222). -/
inductive HostCond where
  | halted
  | eq (x y : HostVal)
  | lt (x y : HostVal)
  | not (x : HostCond)
  /-- Both; the second is asked only where the first holds. -/
  | and (x y : HostCond)
  deriving DecidableEq, Repr

/-- One thing a handler does to the core: write a register, write a byte of memory (bounds-checked), or write
`halted` (46_signal.md R222); of the value written to a register or a byte nothing need be known. -/
inductive HandlerAct where
  | setReg (r : Reg) (v : HostVal)
  | writeByte (addr v : HostVal)
  | setHalted (b : Bool)
  | anyReg (r : Reg)
  | anyByte (addr : HostVal)
  deriving DecidableEq, Repr

/-- A handler's course: actions, branches on what it sees, and choices of which nothing is known. Every relation of
46_signal.md R223 is one of these (Laws/Handler.lean; log entry 6). -/
inductive HandlerProg where
  | done
  | act (x : HandlerAct) (rest : HandlerProg)
  | ite (c : HostCond) (yes no : HandlerProg)
  /-- One of the two, and nothing says which. -/
  | choose (p q : HandlerProg)
  deriving DecidableEq, Repr

/-- One course and then another. -/
def HandlerProg.andThen : HandlerProg → HandlerProg → HandlerProg
  | .done, r => r
  | .act x p, r => .act x (p.andThen r)
  | .ite c p q, r => .ite c (p.andThen r) (q.andThen r)
  | .choose p q, r => .choose (p.andThen r) (q.andThen r)

/-- Actions, one after the other. -/
def HandlerProg.ofActs (acts : List HandlerAct) : HandlerProg := acts.foldr HandlerProg.act .done

/-- A registered handler (46_signal.md R223; log entries 6 and 7). -/
inductive Handler where
  /-- A handler that is known, as far as its course says. -/
  | prog (p : HandlerProg)
  /-- A handler of which nothing is known: at each call its actions are a free value. -/
  | free
  deriving DecidableEq, Repr

/-- The handler that performs the given actions. -/
def Handler.script (acts : List HandlerAct) : Handler := .prog (.ofActs acts)

/-- The operations of NUM (41_arith_logic.md R150). -/
inductive ArithOp where
  | add | sub | mul | div | shl | shr | and | or | xor | not
  deriving DecidableEq, Repr

/-- One value of NUM that differs from the default: operation `op` on `x` and `y` gives the result `r` and the
Overflow `ov` (log entry 5). For `not`, which has one operand, `y` is 0. -/
structure NumEntry where
  op : ArithOp
  x : Word
  y : Word
  r : Word
  ov : Bool
  deriving DecidableEq, Repr

/-- The parameters of one machine, fixed for its life (00_scope.md R7). -/
structure Config where
  enc : Encoding
  flbit : FlagBits
  /-- `K` of `MEM_SIZE = 1024 * K` (20_memory.md R61). -/
  memK : Nat
  /-- SIGTAB, a partial map given by its pairs; the first pair of an id counts (46_signal.md R220). -/
  sigtab : List (Byte × Handler)
  /-- NUM, given by the values in which it differs from the default; the first entry of an operation and operands
  counts. The operands are finitely many, so every choice of NUM is one of these (41_arith_logic.md R150). -/
  num : List NumEntry
  /-- LOAD_BASE: the address a program image is loaded at (70_reset_and_hazards.md R261). -/
  loadBase : Nat
  deriving DecidableEq, Repr

/-- MEM_SIZE (20_memory.md R61). -/
def Config.memSize (c : Config) : Nat := 1024 * c.memK

/-- FREE VALUE (DESIGN CHOICE, log entry 7): the number from which one call of a handler takes its choices and the
values of which nothing is known. It may depend on everything the handler can see (46_signal.md R222: registers,
`halted`, memory), on the id, and on how many calls went before. It has no body. -/
opaque Config.freeHandlerChoice :
  (draw : Nat) → (id : Byte) → (regs : RegFile) → (halted : Bool) → (mem : Memory) → Nat

/-- FREE VALUE (DESIGN CHOICE, log entry 7): the actions that a handler of which nothing is known performs at one
call. It depends on what Config.freeHandlerChoice depends on, so the same call need not act the same way twice. It has
no body. -/
opaque Config.freeHandlerActs :
  (draw : Nat) → (id : Byte) → (regs : RegFile) → (halted : Bool) → (mem : Memory) → List HandlerAct

end Sys2Proof
end

