-- ==== Sys2Proof/Machine/Bits.lean ====
section
/-! DEFINITION. Bit fields, byte order and extension: the notation of 00_scope.md R8 and R9 and the instruction
fields of R15. -/

namespace Sys2Proof

/-- `u16(n)` of a natural number (00_scope.md R8). -/
def u16 (n : Nat) : Word := BitVec.ofNat 16 n

/-- `u16(k)` of an integer (00_scope.md R8 and R14). -/
def u16Int (k : Int) : Word := BitVec.ofInt 16 k

/-- `w[7:0]`, the opcode byte of an instruction word (00_scope.md R15). -/
def Word.lo (w : Word) : Byte := w.extractLsb' 0 8

/-- `w[15:8]`, the operand byte: `imm`, `off` or the two register fields (00_scope.md R15). -/
def Word.hi (w : Word) : Byte := w.extractLsb' 8 8

/-- `w[11:8]`, the first register field (00_scope.md R15). -/
def Word.r1 (w : Word) : Nibble := w.extractLsb' 8 4

/-- `w[15:12]`, the second register field (00_scope.md R15). -/
def Word.r2 (w : Word) : Nibble := w.extractLsb' 12 4

/-- `hi : lo`, the word of two bytes; the low byte is the one at the lower address (20_memory.md R64 and R66). -/
def Word.ofBytes (lo hi : Byte) : Word := hi ++ lo

/-- The operand byte of two register fields, the first in its low half (30_encoding.md R95). -/
def Byte.ofNibbles (first second : Nibble) : Byte := second ++ first

/-- `zext_16` (00_scope.md R9). -/
def zext16 (b : Byte) : Word := b.setWidth 16

/-- `sext_16` (00_scope.md R9). -/
def sext16 (b : Byte) : Word := b.signExtend 16

/-- `signed8` (00_scope.md R9). -/
def signed8 (b : Byte) : Int := b.toInt

end Sys2Proof
end

