-- ==== Sys2Proof/Machine/Num.lean ====
section
/-! DEFINITION. The numeric functions NUM (41_arith_logic.md R150): the defaults, each giving the result and the
Overflow of an operation on two unsigned 16-bit operands, computed exactly and then narrowed; and NUM itself, which is
a parameter. -/

namespace Sys2Proof

/-- Add: Overflow is the carry out (41_arith_logic.md R150, R155). -/
def numAdd (x y : Word) : Word × Bool :=
  (u16 (x.toNat + y.toNat), decide (65535 < x.toNat + y.toNat))

/-- Subtract: Overflow is the borrow (41_arith_logic.md R150, R156). -/
def numSub (x y : Word) : Word × Bool :=
  (u16Int ((x.toNat : Int) - (y.toNat : Int)), decide (x.toNat < y.toNat))

/-- Multiply: the low half of the unsigned product (41_arith_logic.md R150, R157). -/
def numMul (x y : Word) : Word × Bool :=
  (u16 (x.toNat * y.toNat), decide (65535 < x.toNat * y.toNat))

/-- Divide, for a divisor other than 0: the truncated quotient (41_arith_logic.md R150, R158). -/
def numDiv (x y : Word) : Word × Bool :=
  (u16 (x.toNat / y.toNat), false)

/-- The shift amount: the operand modulo 16 (41_arith_logic.md R159, R160). -/
def shiftAmount (y : Word) : Nat := y.toNat % 16

/-- Overflow of a shift: the operand is 16 or more (41_arith_logic.md R150). -/
def shiftOverflow (y : Word) : Bool := decide (16 ≤ y.toNat)

/-- Shift left; bits pushed out of bit 15 are lost and do not set Overflow (41_arith_logic.md R150, R159). -/
def numShl (x y : Word) : Word × Bool :=
  (u16 (x.toNat * 2 ^ shiftAmount y), shiftOverflow y)

/-- Shift right, zeros entering at bit 15 (41_arith_logic.md R150, R160). -/
def numShr (x y : Word) : Word × Bool :=
  (u16 (x.toNat / 2 ^ shiftAmount y), shiftOverflow y)

/-- Bitwise and (41_arith_logic.md R150, R161). -/
def numAnd (x y : Word) : Word × Bool := (x &&& y, false)

/-- Bitwise or (41_arith_logic.md R150, R162). -/
def numOr (x y : Word) : Word × Bool := (x ||| y, false)

/-- Bitwise exclusive or (41_arith_logic.md R150, R163). -/
def numXor (x y : Word) : Word × Bool := (x ^^^ y, false)

/-- Bitwise complement, `65535 - a` (41_arith_logic.md R150, R164). -/
def numNot (x : Word) : Word × Bool := (u16 (65535 - x.toNat), false)

/-- The default of each operation (41_arith_logic.md R150). -/
def numDefault (op : ArithOp) (x y : Word) : Word × Bool :=
  match op with
  | .add => numAdd x y
  | .sub => numSub x y
  | .mul => numMul x y
  | .div => numDiv x y
  | .shl => numShl x y
  | .shr => numShr x y
  | .and => numAnd x y
  | .or => numOr x y
  | .xor => numXor x y
  | .not => numNot x

/-- Whether an entry gives the value of `op` on `x` and `y`. -/
def NumEntry.covers (op : ArithOp) (x y : Word) (e : NumEntry) : Bool :=
  decide (e.op = op) && decide (e.x = x) && decide (e.y = y)

/-- NUM of a machine: the value its parameter lists, else the default (00_scope.md R7; 41_arith_logic.md R150). -/
def Config.numOf (c : Config) (op : ArithOp) (x y : Word) : Word × Bool :=
  match c.num.find? (NumEntry.covers op x y) with
  | some e => (e.r, e.ov)
  | none => numDefault op x y

end Sys2Proof
end

