-- ==== Sys2Proof/WellFormed.lean ====
section
/-! DEFINITION. The constraints that 00_scope.md R7 puts on the parameters, and the operand ranges of
30_encoding.md R98 for an instruction under a register numbering. -/

namespace Sys2Proof

/-- OPC is injective (00_scope.md R7). -/
abbrev OpcMap.wf (o : OpcMap) : Prop := (Mnemonic.all.map o.get).Nodup

/-- REGIDX is a bijection onto 0..7 (00_scope.md R7). -/
abbrev RegMap.wf (g : RegMap) : Prop :=
  (Reg.all.map g.get).Nodup ∧ ∀ r ∈ Reg.all, (g.get r).toNat ≤ 7

/-- Both maps of an encoding meet their constraints. -/
abbrev Encoding.wf (e : Encoding) : Prop := e.opc.wf ∧ RegMap.wf e.regidx

/-- FLBIT is injective (00_scope.md R7); its range 0..15 is in its type. -/
abbrev FlagBits.wf (b : FlagBits) : Prop :=
  b.compare ≠ b.negative ∧ b.compare ≠ b.overflow ∧ b.negative ≠ b.overflow

/-- LOAD_BASE makes PC = 0 the entry of the image (00_scope.md R7): the image must begin at address 0
(70_reset_and_hazards.md R261; log entry 18). -/
abbrev LoadBase.wf (base : Nat) : Prop := base = 0

/-- The constraints of 00_scope.md R7 on all parameters, `K >= 1` among them. SIGTAB has none, and NUM depends on the
operands alone by its type. -/
abbrev Config.wf (c : Config) : Prop := c.enc.wf ∧ c.flbit.wf ∧ 1 ≤ c.memK ∧ LoadBase.wf c.loadBase

/-- The operand ranges of 30_encoding.md R98: a register's number is in 0..7. An immediate and an offset are bytes,
so their ranges 0..255 and -128..127 are in their type. -/
def Instr.wellFormed (g : RegMap) (i : Instr) : Bool :=
  match i.operands with
  | .none => true
  | .imm8 _ => true
  | .reg x => decide ((g.get x).toNat ≤ 7)
  | .reg2 x y => decide ((g.get x).toNat ≤ 7) && decide ((g.get y).toNat ≤ 7)
  | .off8 _ => true

end Sys2Proof
end

