-- ==== Sys2Proof/Decode.lean ====
section
/-! DEFINITION. The decoder, total on all 65,536 words (30_encoding.md R102), and the encoder written from the
encoding table (R98), both over the maps OPC and REGIDX; and the default maps of R100 and 10_state.md R31. -/

namespace Sys2Proof

/-- The default opcode map (30_encoding.md R100). -/
def OpcMap.default : OpcMap where
  nop := 0x00
  push := 0x01
  pop := 0x02
  pushReg := 0x03
  mov := 0x04
  add := 0x05
  sub := 0x06
  mul := 0x07
  div := 0x08
  shl := 0x09
  shr := 0x0A
  and := 0x0B
  or := 0x0C
  xor := 0x0D
  not := 0x0E
  cmp := 0x0F
  jmp := 0x10
  je := 0x11
  jne := 0x12
  load := 0x13
  store := 0x14
  signal := 0x15

/-- The default register numbers (10_state.md R31). -/
def RegMap.default : RegMap where
  a := 0
  b := 1
  c := 2
  d := 3
  sp := 4
  pc := 5
  bp := 6
  fl := 7

/-- The encoding that every word printed in the spec uses. -/
def Encoding.default : Encoding := ⟨OpcMap.default, RegMap.default⟩

/-- The mnemonic that an opcode byte stands for, if any. -/
def OpcMap.find (o : OpcMap) (op : Byte) : Option Mnemonic :=
  Mnemonic.all.find? (fun m => o.get m == op)

/-- The register that a register field names, if any. -/
def RegMap.find (g : RegMap) (n : Nibble) : Option Reg :=
  Reg.all.find? (fun r => g.get r == n)

/-- Shape `REG`: bits 11:8 name the register and bits 15:12 are not read (30_encoding.md R102 and R104). -/
def decodeReg (g : RegMap) (w : Word) (k : Reg → Instr) : Except CoreFault Instr :=
  match g.find (Word.r1 w) with
  | none => .error (.invalidRegister (Word.r1 w))
  | some x => .ok (k x)

/-- Shape `REG2`: the first field is checked before the second (30_encoding.md R102 and R105). -/
def decodeReg2 (g : RegMap) (w : Word) (k : Reg → Reg → Instr) : Except CoreFault Instr :=
  match g.find (Word.r1 w) with
  | none => .error (.invalidRegister (Word.r1 w))
  | some x =>
    match g.find (Word.r2 w) with
    | none => .error (.invalidRegister (Word.r2 w))
    | some y => .ok (k x y)

/-- The instruction of a known mnemonic: its operands are taken out of the word by its shape. -/
def decodeOperands (g : RegMap) (w : Word) : Mnemonic → Except CoreFault Instr
  | .nop => .ok .nop
  | .push => .ok (.push (Word.hi w))
  | .pop => decodeReg g w .pop
  | .pushReg => decodeReg g w .pushReg
  | .mov => decodeReg2 g w .mov
  | .add => decodeReg2 g w .add
  | .sub => decodeReg2 g w .sub
  | .mul => decodeReg2 g w .mul
  | .div => decodeReg2 g w .div
  | .shl => decodeReg2 g w .shl
  | .shr => decodeReg2 g w .shr
  | .and => decodeReg2 g w .and
  | .or => decodeReg2 g w .or
  | .xor => decodeReg2 g w .xor
  | .not => decodeReg g w .not
  | .cmp => decodeReg2 g w .cmp
  | .jmp => .ok (.jmp (Word.hi w))
  | .je => .ok (.je (Word.hi w))
  | .jne => .ok (.jne (Word.hi w))
  | .load => decodeReg2 g w .load
  | .store => decodeReg2 g w .store
  | .signal => .ok (.signal (Word.hi w))

/-- The decoder (30_encoding.md R102): the opcode first, then the fields its shape uses. Every word is either an
instruction or one of the two decode faults, by name. -/
def decode (e : Encoding) (w : Word) : Except CoreFault Instr :=
  match e.opc.find (Word.lo w) with
  | none => .error (.unknownOpcode (Word.lo w))
  | some m => decodeOperands e.regidx w m

/-- The decoder on the two bytes of an instruction, the one at the lower address first (20_memory.md R66). -/
def decodeBytes (e : Encoding) (first second : Byte) : Except CoreFault Instr :=
  decode e (Word.ofBytes first second)

/-- The operand byte of an instruction word; unused bits are written 0 (30_encoding.md R92 to R97). -/
def operandByte (g : RegMap) : Operands → Byte
  | .none => 0
  | .imm8 imm => imm
  | .reg x => Byte.ofNibbles (g.get x) 0
  | .reg2 x y => Byte.ofNibbles (g.get x) (g.get y)
  | .off8 off => off

/-- The encoder (30_encoding.md R98). -/
def encode (e : Encoding) (i : Instr) : Word :=
  Word.ofBytes (e.opc.get i.mnemonic) (operandByte e.regidx i.operands)

/-- The two bytes of an instruction in memory, lowest address first (30_encoding.md R98). -/
def encodeBytes (e : Encoding) (i : Instr) : List Byte :=
  [Word.lo (encode e i), Word.hi (encode e i)]

/-- The bits of a word that a shape leaves unused (30_encoding.md R92, R94, R104). -/
def Shape.unusedBits : Shape → Word
  | .none => 0xFF00
  | .reg => 0xF000
  | .imm8 | .reg2 | .off8 => 0

/-- The instruction that the decoder reads, under the default maps, from an instruction whose bits are `w` as
spec/opcode_table.json numbers them; bits at and above `nbits` are 0. -/
def decodeTableWord (nbits w : Nat) : Option Instr :=
  let bits := w % 2 ^ nbits
  match decodeBytes Encoding.default (BitVec.ofNat 8 bits) (BitVec.ofNat 8 (bits / 256)) with
  | .ok i => some i
  | .error _ => none

end Sys2Proof
end

