-- ==== Sys2Proof/Machine/Flags.lean ====
section
/-! DEFINITION. The flags held in FL: their default positions, reading one, replacing one, and the two flag
updates of the instruction set (00_scope.md R11; 10_state.md R38; 42_mov_cmp.md R182). -/

namespace Sys2Proof

/-- The default flag positions: Compare 0, Negative 1, Overflow 2 (10_state.md R38). -/
def FlagBits.default : FlagBits := ⟨0, 1, 2⟩

/-- `v[p]`, one bit of a word (00_scope.md R8). -/
def bitAt (v : Word) (p : Nat) : Bool := v.getLsbD p

/-- Replace one bit of a word and leave the other 15 (00_scope.md R11). -/
def replaceBit (v : Word) (p : Nat) (b : Bool) : Word :=
  if b then v ||| ((1 : Word) <<< p) else v &&& ~~~((1 : Word) <<< p)

/-- `FL.f` (00_scope.md R11). -/
def readFlag (p : FlagBits) (fl : Word) (f : Flag) : Bool := bitAt fl (p.get f)

/-- `FL.f <- b` (00_scope.md R11). -/
def writeFlag (p : FlagBits) (fl : Word) (f : Flag) (b : Bool) : Word := replaceBit fl (p.get f) b

/-- `setflags(ov, r)` on the contents of FL, in the order of 00_scope.md R11. -/
def resultFlags (p : FlagBits) (fl : Word) (ov : Bool) (r : Word) : Word :=
  let f1 := writeFlag p fl .overflow ov
  let f2 := writeFlag p f1 .negative (bitAt r 15)
  writeFlag p f2 .compare (r == 0)

/-- The flags of `Cmp` on the contents of FL: Compare and Negative only, the comparison unsigned
(42_mov_cmp.md R182). -/
def compareFlags (p : FlagBits) (fl : Word) (x y : Word) : Word :=
  let f1 := writeFlag p fl .compare (x == y)
  writeFlag p f1 .negative (decide (x.toNat < y.toNat))

end Sys2Proof
end

