-- ==== Sys2Proof/Machine/Defaults.lean ====
section
/-! DEFINITION. The default parameters of 00_scope.md R7, which State.reset takes. -/

namespace Sys2Proof

/-- `K` of the memory size that State.reset takes: 1, that is 1024 bytes, the size of the spec's test vectors. The
spec leaves MEM_SIZE open (DESIGN CHOICE, log entry 1). -/
def Config.defaultMemK : Nat := 1

/-- The signal table that State.reset takes: empty, the default of 00_scope.md R7. -/
def Config.defaultSigtab : List (Byte × Handler) := []

/-- LOAD_BASE, by default 0 (00_scope.md R7; 70_reset_and_hazards.md R261). -/
def Config.defaultLoadBase : Nat := 0

/-- The parameters that State.reset takes (00_scope.md R7). -/
def Config.default : Config where
  enc := Encoding.default
  flbit := FlagBits.default
  memK := Config.defaultMemK
  sigtab := Config.defaultSigtab
  num := []
  loadBase := Config.defaultLoadBase

/-- The spec's test table: id 0xF0 sets `halted` (46_signal.md R224). -/
def Config.testSigtab : List (Byte × Handler) := [(0xF0, .script [.setHalted true])]

end Sys2Proof
end

