-- ==== Sys2Proof/Machine/State.lean ====
section
/-! DEFINITION. The whole state of the machine (10_state.md R30 to R44), the parameters it was built with, its state
after reset (R44), and the reasons a step can end without a next state. -/

namespace Sys2Proof.Machine

/-- Everything the spec gives the machine, as plain data. -/
structure State where
  /-- The register file, PC and FL among its eight registers (10_state.md R30). -/
  regs : RegFile
  /-- Memory contents (10_state.md R43). -/
  mem : Memory
  /-- `halted` (10_state.md R40). -/
  halted : Bool
  /-- The fault latch (10_state.md R40). -/
  fault : Option CoreFault
  /-- The debug-trace flag, which has no effect (10_state.md R40 and R41; log entry 10). -/
  trace : Bool
  /-- The parameters, fixed for the life of the machine (00_scope.md R7). -/
  cfg : Config
  /-- The MODEL's own counter of handler calls, not the spec's (log entry 7). -/
  hostDraws : Nat
  deriving DecidableEq, Repr

/-- Why a step has no next state. Both are the stuck states of 40_step_and_nop.md R131: the sequencer takes no step.
A fault that an instruction raises is not here: it is a next state with the latch set (log entry 8). -/
inductive Fault where
  /-- Raised by `step` alone, on a state with `halted` set and no fault latched: the run has ended successfully
  (R135). Safe: no next state is claimed. -/
  | halted
  /-- Raised by `step` alone, on a state with the given fault latched: the run has ended in that fault (R135). Safe:
  no next state is claimed. -/
  | faulted (f : CoreFault)
  deriving DecidableEq, Repr

/-- Why an instruction is given no meaning. -/
inductive Refusal where
  /-- An instruction whose meaning is not written yet; no arm of `exec` answers it. Safe. -/
  | notModelled (mnemonic : String)
  deriving DecidableEq, Repr

/-- The state after reset of a machine with parameters `c` (10_state.md R44): all registers zero, memory zeroed,
`halted` false, no fault latched. `trace` and `hostDraws` are DESIGN CHOICE (log entries 10 and 7). -/
def State.resetWith (c : Config) : State where
  regs := PerReg.const 0
  mem := []
  halted := false
  fault := none
  trace := false
  cfg := c
  hostDraws := 0

/-- The state after reset of the machine with the default parameters (00_scope.md R7). -/
def State.reset : State := State.resetWith Config.default

end Sys2Proof.Machine
end

