-- ==== Sys2Proof/Machine/Ops.lean ====
section
/-! DEFINITION. The named operations over registers, flags and memory, taking a fault, calling a handler, fetching,
and the host's reset and program load. There is no return from a fault but reset (60_exceptions.md R239). -/

namespace Sys2Proof.Machine

/-! ### Registers and flags -/

/-- `x[r]` (00_scope.md R10). -/
def State.reg (s : State) (r : Reg) : Word := s.regs.get r

/-- `x[r] <- v` (00_scope.md R10). -/
def State.setReg (s : State) (r : Reg) (v : Word) : State := { s with regs := s.regs.set r v }

/-- `FL.f` (00_scope.md R11). -/
def State.flag (s : State) (f : Flag) : Bool := readFlag s.cfg.flbit (s.reg .fl) f

/-- `setflags(ov, r)` (00_scope.md R11). -/
def State.setFlags (s : State) (ov : Bool) (r : Word) : State :=
  s.setReg .fl (resultFlags s.cfg.flbit (s.reg .fl) ov r)

/-- The end of every arithmetic and logic instruction: the result first, then the flags, so that with FL as the
destination the flag bits win (41_arith_logic.md R151 and R153). -/
def State.writeResult (s : State) (dst : Reg) (res : Word × Bool) : State :=
  (s.setReg dst res.1).setFlags res.2 res.1

/-! ### Taking a fault -/

/-- `raise f`: the latch takes the fault and everything written before stays written; nothing is saved and PC is not
redirected (00_scope.md R13; 60_exceptions.md R230). -/
def State.raise (s : State) (f : CoreFault) : State := { s with fault := some f }

/-- The code on the fault output (60_exceptions.md R231). -/
def faultCode : Option CoreFault → Nat
  | none => 0
  | some (.outOfBounds _) => 1
  | some (.unknownOpcode _) => 2
  | some (.invalidRegister _) => 3
  | some (.unknownSignal _) => 4
  | some .stackUnderflow => 5
  | some .divisionByZero => 6

/-! ### The memory port -/

/-- MEM_SIZE (20_memory.md R61). -/
def State.memSize (s : State) : Nat := s.cfg.memSize

/-- A read transaction, `MemRead(addr, 1)` (20_memory.md R60 and R62). -/
def State.readByte (s : State) (addr : Nat) : Except CoreFault Byte :=
  if addr < s.memSize then .ok (s.mem.read addr) else .error (.outOfBounds addr)

/-- A write transaction, `MemWrite(addr, 1, b)` (20_memory.md R60 and R62). -/
def State.writeByte (s : State) (addr : Nat) (b : Byte) : Except CoreFault State :=
  if addr < s.memSize then .ok { s with mem := s.mem.write addr b } else .error (.outOfBounds addr)

/-- `MemRead(addr, 2)`: low address first, little-endian, the second address not reduced (20_memory.md R64, R67). -/
def State.readWord (s : State) (addr : Nat) : Except CoreFault Word :=
  match s.readByte addr with
  | .error f => .error f
  | .ok lo =>
    match s.readByte (addr + 1) with
    | .error f => .error f
    | .ok hi => .ok (Word.ofBytes lo hi)

/-- `MemWrite(addr, 2, v)`: both addresses are checked before either byte is stored (20_memory.md R65). -/
def State.writeWord (s : State) (addr : Nat) (v : Word) : Except CoreFault State :=
  if addr < s.memSize then
    if addr + 1 < s.memSize then
      .ok { s with mem := (s.mem.write addr (Word.lo v)).write (addr + 1) (Word.hi v) }
    else .error (.outOfBounds (addr + 1))
  else .error (.outOfBounds addr)

/-! ### The signal port -/

/-- `SIGTAB(id)` (46_signal.md R220). -/
def State.handler (s : State) (id : Byte) : Option Handler := s.cfg.sigtab.lookup id

/-- A number that a handler computes; its reads of memory are bounds-checked (46_signal.md R222). -/
def State.hostVal (s : State) : HostVal → Except CoreFault Nat
  | .lit n => .ok n
  | .reg r => .ok (s.reg r).toNat
  | .byte addr =>
    match State.hostVal s addr with
    | .error f => .error f
    | .ok a =>
      match s.readByte a with
      | .error f => .error f
      | .ok b => .ok b.toNat
  | .add x y =>
    match State.hostVal s x with
    | .error f => .error f
    | .ok m =>
      match State.hostVal s y with
      | .error f => .error f
      | .ok n => .ok (m + n)
  | .mul x y =>
    match State.hostVal s x with
    | .error f => .error f
    | .ok m =>
      match State.hostVal s y with
      | .error f => .error f
      | .ok n => .ok (m * n)

/-- Compare two numbers that a handler computes, the left one first. -/
def State.hostCompare (s : State) (test : Nat → Nat → Bool) (x y : HostVal) : Except CoreFault Bool :=
  match s.hostVal x with
  | .error f => .error f
  | .ok m =>
    match s.hostVal y with
    | .error f => .error f
    | .ok n => .ok (test m n)

/-- What a handler asks of the state (46_signal.md R222). -/
def State.hostCond (s : State) : HostCond → Except CoreFault Bool
  | .halted => .ok s.halted
  | .eq x y => s.hostCompare (fun m n => decide (m = n)) x y
  | .lt x y => s.hostCompare (fun m n => decide (m < n)) x y
  | .not x =>
    match State.hostCond s x with
    | .error f => .error f
    | .ok b => .ok (!b)
  | .and x y =>
    match State.hostCond s x with
    | .error f => .error f
    | .ok false => .ok false
    | .ok true => State.hostCond s y

/-- One action of a handler (46_signal.md R222). `c` is the number from which the call takes what is unknown; an action
that takes a value from it leaves the rest of it to the next. -/
def State.hostAct (s : State) (c : Nat) : HandlerAct → Except CoreFault (State × Nat)
  | .setReg r v =>
    match s.hostVal v with
    | .error f => .error f
    | .ok n => .ok (s.setReg r (u16 n), c)
  | .writeByte addr v =>
    match s.hostVal addr with
    | .error f => .error f
    | .ok a =>
      match s.hostVal v with
      | .error f => .error f
      | .ok n => (s.writeByte a (BitVec.ofNat 8 n)).map fun t => (t, c)
  | .setHalted b => .ok ({ s with halted := b }, c)
  | .anyReg r => .ok (s.setReg r (u16 c), c / 65536)
  | .anyByte addr =>
    match s.hostVal addr with
    | .error f => .error f
    | .ok a => (s.writeByte a (BitVec.ofNat 8 c)).map fun t => (t, c / 256)

/-- How a handler's course ends. -/
inductive HandlerEnd where
  /-- It ran to completion, in `s`, with `c` left of its number. -/
  | done (s : State) (c : Nat)
  /-- It failed with the fault `f` in `s`. -/
  | failed (s : State) (f : CoreFault)
  deriving DecidableEq, Repr

/-- A handler's course from `s`, its choices and unknown values taken from `c` (46_signal.md R222 and R223). What is
done before a failure stays done (00_scope.md R13; log entry 16). -/
def State.runHandler (s : State) (c : Nat) : HandlerProg → HandlerEnd
  | .done => .done s c
  | .act x p =>
    match s.hostAct c x with
    | .error f => .failed s f
    | .ok (t, d) => State.runHandler t d p
  | .ite b p q =>
    match s.hostCond b with
    | .error f => .failed s f
    | .ok true => State.runHandler s c p
    | .ok false => State.runHandler s c q
  | .choose p q => if c % 2 = 0 then State.runHandler s (c / 2) p else State.runHandler s (c / 2) q

/-- The state that a handler leaves: its failure raises the fault in the step of `Signal` (46_signal.md R223). -/
def HandlerEnd.state : HandlerEnd → State
  | .done s _ => s
  | .failed s f => s.raise f

/-- The course of a handler at one call; of a free handler it is the free value (log entry 7). -/
def State.handlerProg (s : State) (id : Byte) : Handler → HandlerProg
  | .prog p => p
  | .free => .ofActs (Config.freeHandlerActs s.hostDraws id s.regs s.halted s.mem)

/-- The free number of one handler call (log entry 7). -/
def State.handlerChoice (s : State) (id : Byte) : Nat :=
  Config.freeHandlerChoice s.hostDraws id s.regs s.halted s.mem

/-- One more handler call is counted, so that the next has free values of its own (log entry 7). -/
def State.countDraw (s : State) : State := { s with hostDraws := s.hostDraws + 1 }

/-- A course run as the handler of `id` is. -/
def State.runAsHandler (s : State) (id : Byte) (p : HandlerProg) : HandlerEnd :=
  s.countDraw.runHandler (s.handlerChoice id) p

/-- The registered handler runs to completion on registers, memory and `halted` (46_signal.md R221 and R222). -/
def State.callHandler (s : State) (id : Byte) (h : Handler) : State :=
  (s.runAsHandler id (s.handlerProg id h)).state

/-! ### The sequencer -/

/-- The three conditions of the sequencer. -/
inductive Condition where
  | running | halted | faulted
  deriving DecidableEq, Repr

/-- The condition, a function of `halted` and the latch (40_step_and_nop.md R130). -/
def State.condition (s : State) : Condition :=
  match s.fault with
  | some _ => .faulted
  | none => if s.halted then .halted else .running

/-- Line 2 of a step: the word at PC (40_step_and_nop.md R132). -/
def State.fetch (s : State) : Except CoreFault Word := s.readWord (s.reg .pc).toNat

/-- Line 3 of a step: PC moves past the instruction, modulo 65536 (40_step_and_nop.md R132; 10_state.md R36). -/
def State.advancePc (s : State) : State := s.setReg .pc (u16 ((s.reg .pc).toNat + 2))

/-! ### The host: reset and program load -/

/-- Reset of a machine, one atomic event (70_reset_and_hazards.md R260); its parameters stay what they are. -/
def State.hostReset (s : State) : State := State.resetWith s.cfg

/-- Store bytes at rising addresses, without a bounds check. -/
def storeBytes (m : Memory) (addr : Nat) : List Byte → Memory
  | [] => m
  | b :: bs => storeBytes (m.write addr b) (addr + 1) bs

/-- The host's bulk load `load(bytes, base_addr)`: all of the image or nothing (70_reset_and_hazards.md R261). The
address it reports is the first one out of range (log entry 18). -/
def State.load (s : State) (image : List Byte) (base : Nat) : Except CoreFault State :=
  if base + image.length ≤ s.memSize then .ok { s with mem := storeBytes s.mem base image }
  else .error (.outOfBounds (max base s.memSize))

/-- Load a program image at LOAD_BASE (70_reset_and_hazards.md R261). -/
def State.loadProgram (s : State) (image : List Byte) : Except CoreFault State :=
  s.load image s.cfg.loadBase

end Sys2Proof.Machine
end

