-- ==== Sys2Proof/Machine/Operands.lean ====
section
/-! DEFINITION. The operand forms: register, immediate byte, branch offset, and the effective addresses of the stack
and of register indirect access (45_load_store.md R214). -/

namespace Sys2Proof.Machine

/-- The immediate of `Push` as a 16-bit value, zero-extended (43_stack.md R190; 30_encoding.md R93). -/
def immWord (imm : Byte) : Word := zext16 imm

/-- Where a branch goes when it is taken: `u16(next + 2 * signed8(off))`, `next` being what PC holds while the
instruction executes (44_branch.md R200). -/
def branchTarget (next : Word) (off : Byte) : Word := u16Int ((next.toNat : Int) + 2 * signed8 off)

/-- The address held in a register, nothing added (45_load_store.md R210 and R212). -/
def State.regAddr (s : State) (r : Reg) : Nat := (s.reg r).toNat

/-- The address a push writes: SP before its increment (43_stack.md R190 and R192). -/
def State.pushAddr (s : State) : Nat := (s.reg .sp).toNat

/-- The address a pop reads: SP after its decrement, for SP of 2 or more (43_stack.md R194). -/
def State.popAddr (s : State) : Nat := (s.reg .sp).toNat - 2

/-- A push of `v`: the word at SP, then SP up by 2, modulo 65536; a failed write leaves SP alone
(43_stack.md R190 to R192). -/
def State.pushWord (s : State) (v : Word) : Except CoreFault State :=
  match s.writeWord s.pushAddr v with
  | .error f => .error f
  | .ok t => .ok (t.setReg .sp (u16 (s.pushAddr + 2)))

/-- SP down by 2, the first half of a pop (43_stack.md R194). -/
def State.dropWord (s : State) : State := s.setReg .sp (u16 s.popAddr)

/-- Whether a pop underflows (43_stack.md R194). -/
def State.popUnderflows (s : State) : Bool := decide ((s.reg .sp).toNat < 2)

end Sys2Proof.Machine
end

