-- ==== Sys2Proof/Machine/Arith.lean ====
section
/-! DEFINITION. The ten arithmetic and logic instructions (41_arith_logic.md). Both operands are read before anything
is written, the left one is the destination's old value, and the result is written before the flags (R151). The result
and Overflow are those of the parameter NUM (R150); the docstrings give its defaults. -/

namespace Sys2Proof.Machine

/-- `Add dst src`: `dst + src`, Overflow the carry (41_arith_logic.md R155). -/
def execAdd (dst src : Reg) (s : State) : Host.Outcome State Fault Refusal :=
  .next (s.writeResult dst (s.cfg.numOf .add (s.reg dst) (s.reg src)))

/-- `Sub dst src`: `dst - src`, Overflow the borrow (41_arith_logic.md R156). -/
def execSub (dst src : Reg) (s : State) : Host.Outcome State Fault Refusal :=
  .next (s.writeResult dst (s.cfg.numOf .sub (s.reg dst) (s.reg src)))

/-- `Mul dst src`: the low half of `dst * src` (41_arith_logic.md R157). -/
def execMul (dst src : Reg) (s : State) : Host.Outcome State Fault Refusal :=
  .next (s.writeResult dst (s.cfg.numOf .mul (s.reg dst) (s.reg src)))

/-- `Div dst src`: the truncated quotient `dst / src`; a zero divisor raises its fault before anything is written
(41_arith_logic.md R158). -/
def execDiv (dst src : Reg) (s : State) : Host.Outcome State Fault Refusal :=
  if s.reg src = 0 then .next (s.raise .divisionByZero)
  else .next (s.writeResult dst (s.cfg.numOf .div (s.reg dst) (s.reg src)))

/-- `Shl dst src`: `dst` shifted left by `src` modulo 16 (41_arith_logic.md R159). -/
def execShl (dst src : Reg) (s : State) : Host.Outcome State Fault Refusal :=
  .next (s.writeResult dst (s.cfg.numOf .shl (s.reg dst) (s.reg src)))

/-- `Shr dst src`: `dst` shifted right by `src` modulo 16, zeros entering (41_arith_logic.md R160). -/
def execShr (dst src : Reg) (s : State) : Host.Outcome State Fault Refusal :=
  .next (s.writeResult dst (s.cfg.numOf .shr (s.reg dst) (s.reg src)))

/-- `And dst src`: bitwise and (41_arith_logic.md R161). -/
def execAnd (dst src : Reg) (s : State) : Host.Outcome State Fault Refusal :=
  .next (s.writeResult dst (s.cfg.numOf .and (s.reg dst) (s.reg src)))

/-- `Or dst src`: bitwise or (41_arith_logic.md R162). -/
def execOr (dst src : Reg) (s : State) : Host.Outcome State Fault Refusal :=
  .next (s.writeResult dst (s.cfg.numOf .or (s.reg dst) (s.reg src)))

/-- `Xor dst src`: bitwise exclusive or (41_arith_logic.md R163). -/
def execXor (dst src : Reg) (s : State) : Host.Outcome State Fault Refusal :=
  .next (s.writeResult dst (s.cfg.numOf .xor (s.reg dst) (s.reg src)))

/-- `Not r`: bitwise complement (41_arith_logic.md R164). -/
def execNot (r : Reg) (s : State) : Host.Outcome State Fault Refusal :=
  .next (s.writeResult r (s.cfg.numOf .not (s.reg r) 0))

end Sys2Proof.Machine
end

