-- ==== Sys2Proof/Machine/Branch.lean ====
section
/-! DEFINITION. `Jmp`, `Je` and `Jne` (44_branch.md). PC already holds the address of the next instruction. -/

namespace Sys2Proof.Machine

/-- `Jmp off`: always taken (44_branch.md R201). -/
def execJmp (off : Byte) (s : State) : Host.Outcome State Fault Refusal :=
  .next (s.setReg .pc (branchTarget (s.reg .pc) off))

/-- `Je off`: taken when Compare is 1 (44_branch.md R202). -/
def execJe (off : Byte) (s : State) : Host.Outcome State Fault Refusal :=
  if s.flag .compare then .next (s.setReg .pc (branchTarget (s.reg .pc) off)) else .next s

/-- `Jne off`: taken when Compare is 0 (44_branch.md R203). -/
def execJne (off : Byte) (s : State) : Host.Outcome State Fault Refusal :=
  if s.flag .compare then .next s else .next (s.setReg .pc (branchTarget (s.reg .pc) off))

end Sys2Proof.Machine
end

