-- ==== Sys2Proof/Machine/LoadStore.lean ====
section
/-! DEFINITION. `Load` and `Store` (45_load_store.md), register indirect. -/

namespace Sys2Proof.Machine

/-- `Load dst addr`: the word at the address in `addr` (45_load_store.md R210). -/
def execLoad (dst addr : Reg) (s : State) : Host.Outcome State Fault Refusal :=
  match s.readWord (s.regAddr addr) with
  | .error f => .next (s.raise f)
  | .ok v => .next (s.setReg dst v)

/-- `Store value addr`: the value register first, the address register second (45_load_store.md R212). -/
def execStore (value addr : Reg) (s : State) : Host.Outcome State Fault Refusal :=
  match s.writeWord (s.regAddr addr) (s.reg value) with
  | .error f => .next (s.raise f)
  | .ok t => .next t

end Sys2Proof.Machine
end

