-- ==== Sys2Proof/Machine/Move.lean ====
section
/-! DEFINITION. `Nop`, `Mov` and `Cmp`. -/

namespace Sys2Proof.Machine

/-- `Nop`: nothing beyond the PC advance (40_step_and_nop.md R140). -/
def execNop (s : State) : Host.Outcome State Fault Refusal := .next s

/-- `Mov dst src`: copy, no flag effect (42_mov_cmp.md R180). -/
def execMov (dst src : Reg) (s : State) : Host.Outcome State Fault Refusal :=
  .next (s.setReg dst (s.reg src))

/-- `Cmp left right`: Compare and Negative of FL, no register else (42_mov_cmp.md R182). -/
def execCmp (left right : Reg) (s : State) : Host.Outcome State Fault Refusal :=
  .next (s.setReg .fl (compareFlags s.cfg.flbit (s.reg .fl) (s.reg left) (s.reg right)))

end Sys2Proof.Machine
end

