-- ==== Sys2Proof/Machine/Signal.lean ====
section
/-! DEFINITION. `Signal`, the host call (46_signal.md). -/

namespace Sys2Proof.Machine

/-- `Signal id`: the handler registered for `id` runs, with PC already at the next instruction; an unregistered id
raises its fault (46_signal.md R221). -/
def execSignal (id : Byte) (s : State) : Host.Outcome State Fault Refusal :=
  match s.handler id with
  | none => .next (s.raise (.unknownSignal id))
  | some h => .next (s.callHandler id h)

end Sys2Proof.Machine
end

