-- ==== Sys2Proof/Machine/Stack.lean ====
section
/-! DEFINITION. `Push`, `PushReg` and `Pop` (43_stack.md). The stack grows upward from SP, a word at a time. -/

namespace Sys2Proof.Machine

/-- `Push imm`: the zero-extended immediate (43_stack.md R190). -/
def execPush (imm : Byte) (s : State) : Host.Outcome State Fault Refusal :=
  match s.pushWord (immWord imm) with
  | .error f => .next (s.raise f)
  | .ok t => .next t

/-- `PushReg r`: the register's value, read before SP is written (43_stack.md R192 and R193). -/
def execPushReg (r : Reg) (s : State) : Host.Outcome State Fault Refusal :=
  match s.pushWord (s.reg r) with
  | .error f => .next (s.raise f)
  | .ok t => .next t

/-- `Pop r`: underflow is tested first; then SP goes down, the word at the new SP is read, and `r` is written last, so
that `Pop SP` ends with the popped value and a failed read leaves SP decremented (43_stack.md R194 and R195). -/
def execPop (r : Reg) (s : State) : Host.Outcome State Fault Refusal :=
  if s.popUnderflows then .next (s.raise .stackUnderflow)
  else
    match s.dropWord.readWord s.popAddr with
    | .error f => .next (s.dropWord.raise f)
    | .ok v => .next (s.dropWord.setReg r v)

end Sys2Proof.Machine
end

