-- ==== Sys2Proof/Machine/Dispatch.lean ====
section
/-! DEFINITION. Line 5 of a step (40_step_and_nop.md R132): one arm per instruction, on the state in which PC has
already been advanced. -/

namespace Sys2Proof.Machine

def exec (i : Instr) (s : State) : Host.Outcome State Fault Refusal :=
  match i with
  | .nop => Sys2Proof.Machine.execNop s
  | .push imm => Sys2Proof.Machine.execPush imm s
  | .pop r => Sys2Proof.Machine.execPop r s
  | .pushReg r => Sys2Proof.Machine.execPushReg r s
  | .mov dst src => Sys2Proof.Machine.execMov dst src s
  | .add dst src => Sys2Proof.Machine.execAdd dst src s
  | .sub dst src => Sys2Proof.Machine.execSub dst src s
  | .mul dst src => Sys2Proof.Machine.execMul dst src s
  | .div dst src => Sys2Proof.Machine.execDiv dst src s
  | .shl dst src => Sys2Proof.Machine.execShl dst src s
  | .shr dst src => Sys2Proof.Machine.execShr dst src s
  | .and dst src => Sys2Proof.Machine.execAnd dst src s
  | .or dst src => Sys2Proof.Machine.execOr dst src s
  | .xor dst src => Sys2Proof.Machine.execXor dst src s
  | .not r => Sys2Proof.Machine.execNot r s
  | .cmp left right => Sys2Proof.Machine.execCmp left right s
  | .jmp off => Sys2Proof.Machine.execJmp off s
  | .je off => Sys2Proof.Machine.execJe off s
  | .jne off => Sys2Proof.Machine.execJne off s
  | .load dst addr => Sys2Proof.Machine.execLoad dst addr s
  | .store value addr => Sys2Proof.Machine.execStore value addr s
  | .signal id => Sys2Proof.Machine.execSignal id s

end Sys2Proof.Machine
end

