-- ==== Sys2Proof/Machine/Step.lean ====
section
/-! DEFINITION. One step of the sequencer (40_step_and_nop.md R131 and R132), and how the host places an instruction
for the next fetch. -/

namespace Sys2Proof.Machine

/-- One step, taken only while running: fetch, advance PC, decode, execute. A fault raised on the way is latched
(R133); a halted or faulted core takes no step (R131). -/
def step (s : State) : Host.Outcome State Fault Refusal :=
  match s.fault with
  | some f => .fault (.faulted f)
  | none =>
    if s.halted then .fault .halted
    else
      match s.fetch with
      | .error f => .next (s.raise f)
      | .ok w =>
        match decode s.cfg.enc w with
        | .error f => .next (s.advancePc.raise f)
        | .ok i => exec i s.advancePc

/-- `s`, running, with the instruction whose bits are `w` (as spec/opcode_table.json numbers them, bits at and above
`nbits` 0) stored as the two bytes at PC, the first at the lower address. It stands for the host's program load
(70_reset_and_hazards.md R261; log entry 19). Where PC does not have two bytes of memory there is no fetch to place
the instruction for, and `s` is left alone. -/
def State.withFetchWord (s : State) (nbits w : Nat) : State :=
  match s.writeWord (s.reg .pc).toNat (u16 (w % 2 ^ nbits)) with
  | .error _ => s
  | .ok t => { t with halted := false, fault := none }

end Sys2Proof.Machine
end

