-- ==== Sys2Proof/Safety.lean ====
section
/-! DEFINITION. The run loop and the ends of a run (40_step_and_nop.md R131 and R135), and the invariant of a
well-built machine. -/

namespace Sys2Proof.Machine

/-- The run loop, at most `n` steps of it: it steps while the sequencer is running and then leaves the state frozen
(40_step_and_nop.md R131). -/
def runLoop : Nat → State → State
  | 0, s => s
  | n + 1, s =>
    match step s with
    | .next t => runLoop n t
    | .fault _ => s
    | .refused _ => s

/-- The run from `s` ends successfully within `n` steps, in `t` (40_step_and_nop.md R135). -/
def EndsSuccessfully (n : Nat) (s t : State) : Prop := runLoop n s = t ∧ t.condition = .halted

/-- The run from `s` ends in the fault `f` within `n` steps, in `t`; such an end is never successful
(40_step_and_nop.md R135). -/
def EndsInFault (n : Nat) (s t : State) (f : CoreFault) : Prop := runLoop n s = t ∧ t.fault = some f

/-- The invariant: the parameters meet their constraints (00_scope.md R7), memory is in its canonical form, and no
address at or above MEM_SIZE holds anything (20_memory.md R61 and R62). -/
def State.Inv (s : State) : Prop :=
  s.cfg.wf ∧ s.mem.wf ∧ ∀ e ∈ s.mem, e.1 < s.memSize

end Sys2Proof.Machine
end

