-- ==== Sys2Proof/Certificates/Slice0/Obligations.lean ====
section
/-! DEFINITION. The statements for the provers, and the few words they are written in. A statement that holds only
for machines whose parameters meet their constraints, or only for memory in its canonical form, takes `State.Inv` as
a premise; StepKeepsInvariant and ResetMeetsInvariant state that invariant. "log <n>" is notes/assumptions/<n>.md. -/

namespace Sys2Proof.Stmt

open Sys2Proof.Machine

/-- Every byte of memory reads in `t` as it reads in `s`. -/
def SameMem (s t : State) : Prop := ∀ a, t.readByte a = s.readByte a

/-- Every byte outside the `n` bytes from `a` on reads in `t` as it reads in `s`. -/
def SameMemOutside (a n : Nat) (s t : State) : Prop :=
  ∀ x, x < a ∨ a + n ≤ x → t.readByte x = s.readByte x

/-- Every register not listed holds in `t` what it holds in `s`. -/
def SameRegsBut (changed : List Reg) (s t : State) : Prop := ∀ r, r ∉ changed → t.reg r = s.reg r

/-- `halted`, `trace`, the parameters and the count of handler calls are those of `s`. -/
def SameRest (s t : State) : Prop :=
  t.halted = s.halted ∧ t.trace = s.trace ∧ t.cfg = s.cfg ∧ t.hostDraws = s.hostDraws

/-- As `SameRest`, and the fault latch is that of `s`: no fault was raised. -/
def SameControl (s t : State) : Prop := SameRest s t ∧ t.fault = s.fault

/-- Only registers may have changed, and only those listed. -/
def OnlyRegs (changed : List Reg) (s t : State) : Prop :=
  SameRegsBut changed s t ∧ SameMem s t ∧ SameControl s t

/-- `exec i s` goes on to the state that differs from `s` in the latch alone, which holds `f`. -/
def RaisesOnly (i : Instr) (s : State) (f : CoreFault) : Prop :=
  ∃ t, exec i s = .next t ∧ t.fault = some f ∧ SameRegsBut [] s t ∧ SameMem s t ∧ SameRest s t

/-- A bit of FL that holds no flag. -/
def NoFlagBit (s : State) (k : Nat) : Prop := ∀ f, k ≠ s.cfg.flbit.get f

/-- The whole effect of an arithmetic or logic instruction with result `r` and Overflow `ov` (41_arith_logic.md
R151 to R153): the destination holds `r`; the three flags are those of `r` and `ov`; the bits of FL that hold no flag
keep what they held, or take the bits of `r` where FL is the destination; nothing else changes. -/
def ResultEffect (s t : State) (dst : Reg) (r : Nat) (ov : Bool) : Prop :=
  (dst ≠ .fl → (t.reg dst).toNat = r) ∧
  t.flag .overflow = ov ∧ t.flag .negative = decide (32768 ≤ r) ∧ t.flag .compare = decide (r = 0) ∧
  (∀ k, k < 16 → NoFlagBit s k →
    bitAt (t.reg .fl) k = if dst = .fl then r.testBit k else bitAt (s.reg .fl) k) ∧
  OnlyRegs [dst, .fl] s t

/-- Under the default maps the instruction has the given word, in both directions, opcode and shape. The opcode and
register numbers are the spec's own decisions D1 and D2 (log 2 and 3). -/
abbrev Encoded (i : Instr) (w : Word) (op : Byte) (sh : Shape) : Prop :=
  encode Encoding.default i = w ∧ decode Encoding.default w = .ok i ∧
  Encoding.default.opc.get i.mnemonic = op ∧ i.mnemonic.shape = sh

/-- NUM is at its defaults (41_arith_logic.md R150, the spec's decisions D5 and D6; log 5). -/
abbrev DefaultNum (s : State) : Prop := s.cfg.num = []

/-- The arithmetic or logic instruction of an operation; `not` has the destination alone. -/
def arithInstr (op : ArithOp) (dst src : Reg) : Instr :=
  match op with
  | .add => .add dst src
  | .sub => .sub dst src
  | .mul => .mul dst src
  | .div => .div dst src
  | .shl => .shl dst src
  | .shr => .shr dst src
  | .and => .and dst src
  | .or => .or dst src
  | .xor => .xor dst src
  | .not => .not dst

/-- What NUM gives an instruction: the operation on the old values of both registers, or of the destination alone. -/
def numResult (op : ArithOp) (dst src : Reg) (s : State) : Word × Bool :=
  s.cfg.numOf op (s.reg dst) (if op = .not then 0 else s.reg src)

/-- A running sequencer whose next fetch and decode give `i`. -/
def About (s : State) (i : Instr) : Prop :=
  s.condition = .running ∧ ∃ w, s.fetch = .ok w ∧ decode s.cfg.enc w = .ok i

/-- The register that an instruction writes because an operand field names it as the destination. -/
def dest : Instr → Option Reg
  | .pop r => some r
  | .mov dst _ => some dst
  | .add dst _ => some dst
  | .sub dst _ => some dst
  | .mul dst _ => some dst
  | .div dst _ => some dst
  | .shl dst _ => some dst
  | .shr dst _ => some dst
  | .and dst _ => some dst
  | .or dst _ => some dst
  | .xor dst _ => some dst
  | .not r => some r
  | .load dst _ => some dst
  | .nop | .push _ | .pushReg _ | .cmp _ _ | .jmp _ | .je _ | .jne _ | .store _ _ | .signal _ => none

/-- The registers that the operand fields of an instruction name. -/
def operandRegs (i : Instr) : List Reg :=
  match i.operands with
  | .none | .imm8 _ | .off8 _ => []
  | .reg x => [x]
  | .reg2 x y => [x, y]

/-- Apply a function to the next state of an outcome. -/
def mapNext (g : State → State) : Host.Outcome State Fault Refusal → Host.Outcome State Fault Refusal
  | .next t => .next (g t)
  | .fault f => .fault f
  | .refused r => .refused r

/-- The instruction runs a handler that is registered. -/
def CallsHandler (i : Instr) (s : State) : Prop := ∃ id h, i = .signal id ∧ s.handler id = some h

/-- The instruction is a branch that is taken in `s` (44_branch.md R201 to R203). -/
def Taken (i : Instr) (s : State) : Prop :=
  (∃ off, i = .jmp off) ∨ (∃ off, i = .je off ∧ s.flag .compare = true) ∨
  (∃ off, i = .jne off ∧ s.flag .compare = false)

end Sys2Proof.Stmt

open Sys2Proof Sys2Proof.Machine Sys2Proof.Stmt

/-! ### Encoding -/

/-- 30_encoding.md section 1 (the round trip, which the spec derives from the encoder and the decoder): for every
choice of the maps, decoding an encoded instruction gives it back; and encoding a decoded word gives the word back
exactly when its unused bits are 0. -/
def Obligations.DecodeInvertsEncode : Prop :=
  ∀ e : Encoding, e.wf →
    (∀ i, decode e (encode e i) = .ok i) ∧
    (∀ w i, decode e w = .ok i → (encode e i = w ↔ w &&& i.mnemonic.shape.unusedBits = 0))

/-- R98: the word of every instruction, by shape, as a number, with the operand ranges it admits, and its two bytes
in memory. -/
def Obligations.EncodeFollowsTheFormulas : Prop :=
  ∀ e : Encoding, e.wf →
    (∀ i : Instr,
      (encode e i).toNat =
        (match i.operands with
          | .none => (e.opc.get i.mnemonic).toNat
          | .imm8 imm => imm.toNat * 256 + (e.opc.get i.mnemonic).toNat
          | .reg x => (e.regidx.get x).toNat * 256 + (e.opc.get i.mnemonic).toNat
          | .reg2 x y =>
            (e.regidx.get y).toNat * 4096 + (e.regidx.get x).toNat * 256 + (e.opc.get i.mnemonic).toNat
          | .off8 off => (signed8 off % 256).toNat * 256 + (e.opc.get i.mnemonic).toNat) ∧
      i.wellFormed e.regidx = true ∧
      encodeBytes e i =
        [BitVec.ofNat 8 ((encode e i).toNat % 256), BitVec.ofNat 8 ((encode e i).toNat / 256)]) ∧
    (∀ k : Int, -128 ≤ k ∧ k ≤ 127 ↔ ∃ off : Byte, signed8 off = k)

/-- R102: the decoder, for every word. A low byte that is no opcode is UnknownOpcode. Otherwise the mnemonic is the
one with that opcode, its operands are the fields its shape uses, and a register field above 7 is InvalidRegister,
the first field checked before the second. -/
def Obligations.DecodeFollowsTheAlgorithm : Prop :=
  ∀ (e : Encoding) (w : Word), e.wf →
    ((∀ m, e.opc.get m ≠ Word.lo w) → decode e w = .error (.unknownOpcode (Word.lo w))) ∧
    ∀ m, e.opc.get m = Word.lo w →
      match m.shape with
      | .none => ∃ i, decode e w = .ok i ∧ i.mnemonic = m ∧ i.operands = .none
      | .imm8 => ∃ i, decode e w = .ok i ∧ i.mnemonic = m ∧ i.operands = .imm8 (Word.hi w)
      | .off8 => ∃ i, decode e w = .ok i ∧ i.mnemonic = m ∧ i.operands = .off8 (Word.hi w)
      | .reg =>
        (7 < (Word.r1 w).toNat → decode e w = .error (.invalidRegister (Word.r1 w))) ∧
        ((Word.r1 w).toNat ≤ 7 → ∃ i x, decode e w = .ok i ∧ i.mnemonic = m ∧ i.operands = .reg x ∧
          e.regidx.get x = Word.r1 w)
      | .reg2 =>
        (7 < (Word.r1 w).toNat → decode e w = .error (.invalidRegister (Word.r1 w))) ∧
        ((Word.r1 w).toNat ≤ 7 → 7 < (Word.r2 w).toNat →
          decode e w = .error (.invalidRegister (Word.r2 w))) ∧
        ((Word.r1 w).toNat ≤ 7 → (Word.r2 w).toNat ≤ 7 → ∃ i x y, decode e w = .ok i ∧ i.mnemonic = m ∧
          i.operands = .reg2 x y ∧ e.regidx.get x = Word.r1 w ∧ e.regidx.get y = Word.r2 w)

/-- R103: a word whose low byte is no opcode raises UnknownOpcode with that byte, whatever its high byte, in the step
after the PC advance; under the default map these are the bytes 0x16 to 0xFF, 234 of them. -/
def Obligations.UnknownOpcodeFaultsAfterTheAdvance : Prop :=
  (∀ (s : State) (w : Word), s.condition = .running → s.fetch = .ok w →
    (∀ m, s.cfg.enc.opc.get m ≠ Word.lo w) →
      ∃ t, step s = .next t ∧ t.fault = some (.unknownOpcode (Word.lo w)) ∧
        (t.reg .pc).toNat = ((s.reg .pc).toNat + 2) % 65536 ∧
        SameRegsBut [.pc] s t ∧ SameMem s t ∧ SameRest s t) ∧
  (∀ b : Byte, (∀ m, OpcMap.default.get m ≠ b) ↔ 0x16 ≤ b.toNat) ∧
  ((List.range 256).filter (fun n => (OpcMap.default.find (BitVec.ofNat 8 n)).isNone)).length = 234

/-- 30_encoding.md section 3 (unused bits: the spec's decision D13, log 12): the decoder reads the low byte alone of a
NONE word and the low twelve bits alone of a REG word. -/
def Obligations.UnusedBitsAreIgnored : Prop :=
  ∀ (e : Encoding) (v w : Word) (m : Mnemonic), e.wf → e.opc.get m = Word.lo v → Word.lo v = Word.lo w →
    (m.shape = .none → decode e v = decode e w) ∧
    (m.shape = .reg → Word.r1 v = Word.r1 w → decode e v = decode e w)

/-- Sanity, from the spec's vectors V1 (95_test_vectors.md; numbers by decisions D1 and D2, log 2 and 3): words
written out from the encoding decode to the instruction they stand for, and illegal ones to their fault. -/
def Obligations.SpecWordsDecode : Prop :=
  decode Encoding.default 0x3400 = .ok .nop ∧ decode Encoding.default 0x0A01 = .ok (.push 10) ∧
  decode Encoding.default 0x5102 = .ok (.pop .b) ∧ decode Encoding.default 0x0503 = .ok (.pushReg .pc) ∧
  decode Encoding.default 0x3206 = .ok (.sub .c .d) ∧ decode Encoding.default 0x670F = .ok (.cmp .fl .bp) ∧
  decode Encoding.default 0xFD12 = .ok (.jne 0xFD) ∧ decode Encoding.default 0x2113 = .ok (.load .b .c) ∧
  decode Encoding.default 0x2014 = .ok (.store .a .c) ∧ decode Encoding.default 0xF015 = .ok (.signal 0xF0) ∧
  decode Encoding.default 0x8816 = .error (.unknownOpcode 0x16) ∧
  decode Encoding.default 0x9A05 = .error (.invalidRegister 0xA) ∧
  decode Encoding.default 0x8005 = .error (.invalidRegister 8)

/-! ### The sequencer -/

/-- R132: one step of a running sequencer. A failed fetch latches its fault and leaves PC; otherwise PC moves by 2
modulo 65536, and then either the word's decode fault is latched or the decoded instruction is executed on that state.
The fetch is the word read at PC. -/
def Obligations.StepRunsTheDecodedInstruction : Prop :=
  ∀ s : State, s.condition = .running →
    s.fetch = s.readWord (s.reg .pc).toNat ∧
    (∀ f, s.fetch = .error f → step s = .next { s with fault := some f }) ∧
    ∀ w, s.fetch = .ok w →
      (∀ f, decode s.cfg.enc w = .error f →
        step s = .next { s.setReg .pc (BitVec.ofNat 16 ((s.reg .pc).toNat + 2)) with fault := some f }) ∧
      (∀ i, decode s.cfg.enc w = .ok i →
        step s = exec i (s.setReg .pc (BitVec.ofNat 16 ((s.reg .pc).toNat + 2))))

/-- 40_step_and_nop.md section 1 (the run loop: the spec's decision D19, log 9): there is a step exactly while the
sequencer is running, and the run loop leaves a halted or faulted state frozen. -/
def Obligations.StepsExactlyWhileRunning : Prop :=
  ∀ s : State,
    (s.condition = .running ↔ ∃ t, step s = .next t) ∧
    (s.condition = .running ↔ s.halted = false ∧ s.fault = none) ∧
    (s.condition = .halted ↔ s.halted = true ∧ s.fault = none) ∧
    (s.condition ≠ .running → ∀ n, runLoop n s = s)

/-- 40_step_and_nop.md section 2 (what else writes PC): a step leaves PC at the next instruction unless the
instruction is a taken branch, names PC as its destination, or calls a handler. -/
def Obligations.PcMovesByTwoOtherwise : Prop :=
  ∀ (s t : State) (i : Instr), About s i → step s = .next t →
    ¬ Taken i s.advancePc → dest i ≠ some .pc → ¬ CallsHandler i s →
      (t.reg .pc).toNat = ((s.reg .pc).toNat + 2) % 65536

/-- 10_state.md section 2 (PC has no alignment requirement, the spec's decision D16, log 11): PC stays even over a
step that neither names PC as its destination nor calls a handler. -/
def Obligations.PcStaysEven : Prop :=
  ∀ (s t : State) (i : Instr), About s i → step s = .next t → dest i ≠ some .pc → ¬ CallsHandler i s →
    (s.reg .pc).toNat % 2 = 0 → (t.reg .pc).toNat % 2 = 0

/-- 40_step_and_nop.md section 2 (running off the end of the program): from a running state whose memory holds zeros
from PC on, `n` steps move PC over `n` words and change nothing else, under a map in which 0x00 is `Nop` (decision D1,
log 2); where that is the end of memory the next step latches OutOfBounds(MEM_SIZE) with PC at MEM_SIZE. -/
def Obligations.ZeroedMemoryRunsAsNops : Prop :=
  ∀ (n : Nat) (s : State), s.condition = .running → s.cfg.enc.wf → s.cfg.enc.opc.get .nop = 0 →
    (s.reg .pc).toNat + 2 * n ≤ 65535 →
    (∀ a, (s.reg .pc).toNat ≤ a → a < (s.reg .pc).toNat + 2 * n → s.readByte a = .ok 0) →
      runLoop n s = s.setReg .pc (BitVec.ofNat 16 ((s.reg .pc).toNat + 2 * n)) ∧
      ((s.reg .pc).toNat + 2 * n = s.memSize →
        (runLoop (n + 1) s).fault = some (.outOfBounds s.memSize) ∧
        ((runLoop (n + 1) s).reg .pc).toNat = s.memSize)

/-! ### Faults -/

/-- 60_exceptions.md section 1 and 40_step_and_nop.md section 2 (what a fault leaves behind: the spec's decision D18,
log 9): a step that latches a fault without calling a handler has changed no byte of memory, nor `halted`, `trace` or
a parameter; a fetch fault has changed no register; any other fault has moved PC by 2, and, for a `Pop` whose read is
out of bounds alone, SP down by 2. -/
def Obligations.FaultsArePrecise : Prop :=
  ∀ (s t : State) (f : CoreFault), step s = .next t → t.fault = some f →
    (∀ i, About s i → ¬ CallsHandler i s) →
      SameMem s t ∧ SameRest s t ∧
      (∀ g, s.fetch = .error g → f = g ∧ SameRegsBut [] s t) ∧
      (∀ w, s.fetch = .ok w →
        (t.reg .pc).toNat = ((s.reg .pc).toNat + 2) % 65536 ∧ SameRegsBut [.pc, .sp] s t ∧
        (t.reg .sp ≠ s.reg .sp →
          (∃ r, decode s.cfg.enc w = .ok (.pop r)) ∧ f ≠ .stackUnderflow ∧
          (t.reg .sp).toNat + 2 = (s.reg .sp).toNat) ∧
        (∀ r, decode s.cfg.enc w = .ok (.pop r) → f ≠ .stackUnderflow →
          (t.reg .sp).toNat + 2 = (s.reg .sp).toNat))

/-- 60_exceptions.md section 1 (which instruction can raise which fault): every other instruction raises none. That a
registered handler can raise OutOfBounds alone is the model's inference, log 16. -/
def Obligations.FaultsByInstruction : Prop :=
  ∀ (i : Instr) (s t : State) (f : CoreFault), s.fault = none → exec i s = .next t → t.fault = some f →
    (∃ dst src, i = .div dst src ∧ f = .divisionByZero) ∨
    ((∃ imm, i = .push imm) ∨ (∃ r, i = .pushReg r) ∨ (∃ x y, i = .load x y) ∨ (∃ x y, i = .store x y)) ∧
      (∃ a, s.memSize ≤ a ∧ f = .outOfBounds a) ∨
    (∃ r, i = .pop r ∧ (f = .stackUnderflow ∨ ∃ a, s.memSize ≤ a ∧ f = .outOfBounds a)) ∨
    (∃ id, i = .signal id ∧
      ((s.handler id = none ∧ f = .unknownSignal id) ∨
        ((∃ h, s.handler id = some h) ∧ ∃ a, s.memSize ≤ a ∧ f = .outOfBounds a)))

/-- 40_step_and_nop.md section 1 (the end of a run, the spec's decision D29, log 9): a run from a running state that
ends successfully has no fault and ends with the step of a `Signal` whose handler is registered. -/
def Obligations.SuccessfulRunEndsInASignal : Prop :=
  ∀ (n : Nat) (s t : State), s.condition = .running → EndsSuccessfully n s t →
    (∀ f, ¬ EndsInFault n s t f) ∧
    ∃ k u id h, runLoop k s = u ∧ About u (.signal id) ∧ u.handler id = some h ∧ step u = .next t

/-! ### State, reset, memory -/

/-- R30: the register file has exactly eight registers, and each holds whatever was last written to it, whichever
register is written. -/
def Obligations.EveryRegisterHoldsWhatWasWritten : Prop :=
  (∀ r : Reg, r ∈ [Reg.a, .b, .c, .d, .sp, .pc, .bp, .fl]) ∧ [Reg.a, .b, .c, .d, .sp, .pc, .bp, .fl].Nodup ∧
  ∀ (s : State) (r q : Reg) (v : Word),
    (s.setReg r v).reg q = (if q = r then v else s.reg q) ∧ OnlyRegs [r] s (s.setReg r v)

/-- R44: the state after reset, of a machine with any parameters: every register zero (so PC and SP are zero, and
every flag and every other bit of FL), `halted` false, no fault latched, every byte of memory zero; the parameters
stay. The machine that the interface starts is one of these. -/
def Obligations.ResetLeavesZeros : Prop :=
  (∀ s : State,
    (∀ r, s.hostReset.reg r = 0) ∧ (∀ f, s.hostReset.flag f = false) ∧
    (∀ k, bitAt (s.hostReset.reg .fl) k = false) ∧ s.hostReset.halted = false ∧ s.hostReset.fault = none ∧
    s.hostReset.condition = .running ∧ (∀ a, a < s.hostReset.memSize → s.hostReset.readByte a = .ok 0) ∧
    s.hostReset.cfg = s.cfg) ∧
  (∃ s : State, Sys2Proof.core.reset = s.hostReset)

/-- 70_reset_and_hazards.md section 1 (program load, the spec's decision D21, log 18): a load puts byte `i` of the
image at `base + i` and changes nothing else; an image that does not fit is refused with OutOfBounds. -/
def Obligations.LoadPlacesTheImage : Prop :=
  ∀ (s : State) (image : List Byte) (base : Nat), s.Inv →
    (base + image.length ≤ s.memSize →
      ∃ t, s.load image base = .ok t ∧ (∀ i b, image[i]? = some b → t.readByte (base + i) = .ok b) ∧
        SameMemOutside base image.length s t ∧ SameRegsBut [] s t ∧ SameControl s t) ∧
    (s.memSize < base + image.length → ∃ a, s.memSize ≤ a ∧ s.load image base = .error (.outOfBounds a))

/-- 20_memory.md section 1 (bounds; `copy` is out of scope by 00_scope.md R4): a byte access succeeds if and only if
its address is below MEM_SIZE and answers OutOfBounds of its address otherwise; a write is visible to a read at once,
and every other byte stays. Word accesses and the bulk load are range-checked too: a word access succeeds if and only
if both its bytes are below MEM_SIZE, a load if and only if the image ends at or below MEM_SIZE. -/
def Obligations.EveryAccessIsRangeChecked : Prop :=
  ∀ (s : State) (a : Nat), s.Inv →
    (if a < s.memSize then ∃ b, s.readByte a = .ok b else s.readByte a = .error (.outOfBounds a)) ∧
    (∀ b, if a < s.memSize then
        ∃ t, s.writeByte a b = .ok t ∧ t.readByte a = .ok b ∧ SameMemOutside a 1 s t ∧
          SameRegsBut [] s t ∧ SameControl s t
      else s.writeByte a b = .error (.outOfBounds a)) ∧
    ((∃ v, s.readWord a = .ok v) ↔ a + 1 < s.memSize) ∧
    (∀ v, (∃ t, s.writeWord a v = .ok t) ↔ a + 1 < s.memSize) ∧
    (∀ image, (∃ t, s.load image a = .ok t) ↔ a + image.length ≤ s.memSize)

/-- R64: a word read is two byte reads, low address first, the low byte at the lower address; it fails with the first
of the two addresses that is out of range. -/
def Obligations.WordReadIsLittleEndian : Prop :=
  ∀ (s : State) (a : Nat),
    (∀ lo hi, s.readByte a = .ok lo → s.readByte (a + 1) = .ok hi →
      ∃ v, s.readWord a = .ok v ∧ v.toNat = hi.toNat * 256 + lo.toNat) ∧
    (s.memSize ≤ a → s.readWord a = .error (.outOfBounds a)) ∧
    (a < s.memSize → s.memSize ≤ a + 1 → s.readWord a = .error (.outOfBounds (a + 1)))

/-- 20_memory.md section 2 (word writes: the spec's decisions D15 and D17, log 11 and 13): a word write stores the low
byte at the address and the high byte at the next one, and stores nothing where either is out of range, the lower
address being reported first. -/
def Obligations.WordWriteIsAllOrNothing : Prop :=
  ∀ (s : State) (a : Nat) (v : Word), s.Inv →
    (a + 1 < s.memSize →
      ∃ t, s.writeWord a v = .ok t ∧ t.readByte a = .ok (Word.lo v) ∧ t.readByte (a + 1) = .ok (Word.hi v) ∧
        t.readWord a = .ok v ∧ SameMemOutside a 2 s t ∧ SameRegsBut [] s t ∧ SameControl s t) ∧
    (s.memSize ≤ a → s.writeWord a v = .error (.outOfBounds a)) ∧
    (a < s.memSize → s.memSize ≤ a + 1 → s.writeWord a v = .error (.outOfBounds (a + 1)))

/-- 20_memory.md section 2 (one byte order for every access): a word access at `a + 1` after a word store of `v` at
`a` reads the high byte of `v` as its low byte and the byte at `a + 2` as its high byte. -/
def Obligations.OverlappingWordsShareAByte : Prop :=
  ∀ (s t : State) (a : Nat) (v : Word), s.Inv → s.writeWord a v = .ok t → a + 2 < s.memSize →
    ∃ x y, t.readWord (a + 1) = .ok x ∧ s.readByte (a + 2) = .ok y ∧
      x.toNat = y.toNat * 256 + v.toNat / 256

/-- 20_memory.md section 6 (fetch and stores): a `Store` to the two bytes of the next instruction decides what the
next step executes. -/
def Obligations.StoreIsSeenByTheNextFetch : Prop :=
  ∀ (s : State) (value addr : Reg) (j : Instr), s.Inv → About s (.store value addr) →
    s.advancePc.regAddr addr = (s.advancePc.reg .pc).toNat →
    s.advancePc.reg value = encode s.cfg.enc j → (s.advancePc.reg .pc).toNat + 1 < s.memSize →
      ∃ t, step s = .next t ∧ About t j ∧ step t = exec j t.advancePc

/-! ### Flags -/

/-- 00_scope.md section 4 (flags: the spec's decision D3, log 4): writing a flag replaces that one bit of FL and leaves
the other 15; `setflags(ov, r)` sets Overflow to `ov`, Negative to bit 15 of `r`, Compare to whether `r` is 0, and
leaves the other bits. -/
def Obligations.FlagWritesLeaveOtherBits : Prop :=
  ∀ (p : FlagBits) (fl : Word), p.wf →
    (∀ (f : Flag) (b : Bool), readFlag p (writeFlag p fl f b) f = b ∧
      ∀ k, k ≠ p.get f → bitAt (writeFlag p fl f b) k = bitAt fl k) ∧
    (∀ (ov : Bool) (r : Word),
      readFlag p (resultFlags p fl ov r) .overflow = ov ∧
      readFlag p (resultFlags p fl ov r) .negative = decide (32768 ≤ r.toNat) ∧
      readFlag p (resultFlags p fl ov r) .compare = decide (r.toNat = 0) ∧
      ∀ k, (∀ f, k ≠ p.get f) → bitAt (resultFlags p fl ov r) k = bitAt fl k)

/-- 10_state.md section 3 (flags are never a side effect of the other instructions): `Nop`, `Mov`, `Push`, `PushReg`,
`Pop`, `Jmp`, `Je`, `Jne`, `Load`, `Store`, and a `Signal` that calls no handler, change FL only where FL is their
destination operand. -/
def Obligations.OtherInstructionsKeepFlags : Prop :=
  ∀ (i : Instr) (s t : State),
    i.mnemonic ∈ [Mnemonic.nop, .mov, .push, .pushReg, .pop, .jmp, .je, .jne, .load, .store, .signal] →
    dest i ≠ some .fl → ¬ CallsHandler i s → exec i s = .next t → t.reg .fl = s.reg .fl

/-! ### Arithmetic and logic (41_arith_logic.md; the spec's decisions D4, D5, D6, D8: log 5 and 15). NUM is a parameter:
the first statement holds for every choice of it, the ones after it say what the default gives. -/

/-- 41_arith_logic.md section 1 (the common step, decisions D4 and D8): under every choice of NUM the ten instructions
write the result that NUM gives for the old operands, and its flags; `Div` with a zero divisor raises DivisionByZero
and writes nothing. -/
def Obligations.ArithmeticAppliesNum : Prop :=
  ∀ (op : ArithOp) (dst src : Reg) (s : State), s.Inv →
    (op ≠ .div ∨ s.reg src ≠ 0 → ∃ t, exec (arithInstr op dst src) s = .next t ∧
      ResultEffect s t dst (numResult op dst src s).1.toNat (numResult op dst src s).2) ∧
    (op = .div → s.reg src = 0 → RaisesOnly (arithInstr op dst src) s .divisionByZero)

/-- `Add`: the sum modulo 65536, Overflow the carry. -/
def Obligations.AddWrapsWithCarry : Prop :=
  Encoded (.add .a .b) 0x1005 0x05 .reg2 ∧
  ∀ (dst src : Reg) (s : State), s.Inv → DefaultNum s →
    ∃ t, exec (.add dst src) s = .next t ∧
      ResultEffect s t dst (((s.reg dst).toNat + (s.reg src).toNat) % 65536)
        (decide (65535 < (s.reg dst).toNat + (s.reg src).toNat))

/-- `Sub`: destination minus source modulo 65536, Overflow the borrow. -/
def Obligations.SubWrapsWithBorrow : Prop :=
  Encoded (.sub .c .d) 0x3206 0x06 .reg2 ∧
  ∀ (dst src : Reg) (s : State), s.Inv → DefaultNum s →
    ∃ t, exec (.sub dst src) s = .next t ∧
      ResultEffect s t dst (((s.reg dst).toNat + 65536 - (s.reg src).toNat) % 65536)
        (decide ((s.reg dst).toNat < (s.reg src).toNat))

/-- `Mul`: the low 16 bits of the unsigned product, Overflow where it does not fit. -/
def Obligations.MulKeepsTheLowHalf : Prop :=
  Encoded (.mul .a .b) 0x1007 0x07 .reg2 ∧
  ∀ (dst src : Reg) (s : State), s.Inv → DefaultNum s →
    ∃ t, exec (.mul dst src) s = .next t ∧
      ResultEffect s t dst (((s.reg dst).toNat * (s.reg src).toNat) % 65536)
        (decide (65535 < (s.reg dst).toNat * (s.reg src).toNat))

/-- `Div`: the truncated unsigned quotient, Overflow 0; a zero divisor raises DivisionByZero and writes nothing. -/
def Obligations.DivTruncatesOrFaults : Prop :=
  Encoded (.div .a .b) 0x1008 0x08 .reg2 ∧
  ∀ (dst src : Reg) (s : State), s.Inv → DefaultNum s →
    (s.reg src ≠ 0 → ∃ t, exec (.div dst src) s = .next t ∧
      ResultEffect s t dst ((s.reg dst).toNat / (s.reg src).toNat) false) ∧
    (s.reg src = 0 → RaisesOnly (.div dst src) s .divisionByZero)

/-- `Shl`: the shift amount modulo 16, Overflow where the amount is 16 or more. -/
def Obligations.ShlShiftsModuloSixteen : Prop :=
  Encoded (.shl .a .b) 0x1009 0x09 .reg2 ∧
  ∀ (dst src : Reg) (s : State), s.Inv → DefaultNum s →
    ∃ t, exec (.shl dst src) s = .next t ∧
      ResultEffect s t dst (((s.reg dst).toNat * 2 ^ ((s.reg src).toNat % 16)) % 65536)
        (decide (16 ≤ (s.reg src).toNat))

/-- `Shr`: logical, the shift amount modulo 16, Overflow where the amount is 16 or more. -/
def Obligations.ShrShiftsModuloSixteen : Prop :=
  Encoded (.shr .a .b) 0x100A 0x0A .reg2 ∧
  ∀ (dst src : Reg) (s : State), s.Inv → DefaultNum s →
    ∃ t, exec (.shr dst src) s = .next t ∧
      ResultEffect s t dst ((s.reg dst).toNat / 2 ^ ((s.reg src).toNat % 16))
        (decide (16 ≤ (s.reg src).toNat))

/-- `And`, `Or` and `Xor`: the bitwise result, Overflow 0. -/
def Obligations.BitwiseResultsClearOverflow : Prop :=
  Encoded (.and .b .c) 0x210B 0x0B .reg2 ∧ Encoded (.or .a .b) 0x100C 0x0C .reg2 ∧
  Encoded (.xor .a .a) 0x000D 0x0D .reg2 ∧
  ∀ (dst src : Reg) (s : State), s.Inv → DefaultNum s →
    (∃ t, exec (.and dst src) s = .next t ∧
      ResultEffect s t dst ((s.reg dst).toNat &&& (s.reg src).toNat) false) ∧
    (∃ t, exec (.or dst src) s = .next t ∧
      ResultEffect s t dst ((s.reg dst).toNat ||| (s.reg src).toNat) false) ∧
    (∃ t, exec (.xor dst src) s = .next t ∧
      ResultEffect s t dst ((s.reg dst).toNat ^^^ (s.reg src).toNat) false)

/-- `Not`: the bitwise complement, Overflow 0. -/
def Obligations.NotComplements : Prop :=
  Encoded (.not .d) 0x030E 0x0E .reg ∧
  ∀ (r : Reg) (s : State), s.Inv → DefaultNum s →
    ∃ t, exec (.not r) s = .next t ∧ ResultEffect s t r (65535 - (s.reg r).toNat) false

/-- 41_arith_logic.md section 1 (special registers as destination): with FL the destination and the default flag
positions (decision D3, log 4), FL ends as the result with its low three bits replaced by the result's flags. -/
def Obligations.ResultIntoFlagsRegister : Prop :=
  ∀ (s : State) (res : Word × Bool), s.cfg.flbit = FlagBits.default →
    (s.writeResult .fl res).reg .fl =
      (res.1 &&& 0xFFF8) ||| (if res.2 then 4 else 0) ||| (if 32768 ≤ res.1.toNat then 2 else 0) |||
        (if res.1 = 0 then 1 else 0)

/-! ### Nop, Mov, Cmp -/

/-- R140: `Nop` has no effect beyond the PC advance; under the default map any word with low byte 0 is `Nop`. -/
def Obligations.NopOnlyAdvances : Prop :=
  Encoded .nop 0x0000 0x00 .none ∧ (∀ w : Word, Word.lo w = 0 → decode Encoding.default w = .ok .nop) ∧
  (∀ s : State, exec .nop s = .next s) ∧
  (∀ s : State, About s .nop →
    ∃ t, step s = .next t ∧ (t.reg .pc).toNat = ((s.reg .pc).toNat + 2) % 65536 ∧ OnlyRegs [.pc] s t)

/-- R180: `Mov` copies the source to the destination, with no other effect and no fault. -/
def Obligations.MovCopies : Prop :=
  Encoded (.mov .c .a) 0x0204 0x04 .reg2 ∧
  ∀ (dst src : Reg) (s : State),
    ∃ t, exec (.mov dst src) s = .next t ∧ t.reg dst = s.reg src ∧ OnlyRegs [dst] s t

/-- 42_mov_cmp.md (`Cmp`: the spec's decision D7, log 15): Compare is whether the operands are equal, Negative whether
the first is less, unsigned; Overflow, the other bits of FL and everything else stay. -/
def Obligations.CmpSetsTwoFlags : Prop :=
  Encoded (.cmp .a .b) 0x100F 0x0F .reg2 ∧
  ∀ (left right : Reg) (s : State), s.Inv →
    ∃ t, exec (.cmp left right) s = .next t ∧
      t.flag .compare = decide (s.reg left = s.reg right) ∧
      t.flag .negative = decide ((s.reg left).toNat < (s.reg right).toNat) ∧
      t.flag .overflow = s.flag .overflow ∧
      (∀ k, NoFlagBit s k → bitAt (t.reg .fl) k = bitAt (s.reg .fl) k) ∧ OnlyRegs [.fl] s t

/-! ### Stack -/

namespace Sys2Proof.Stmt

/-- The whole effect of pushing `v` with the instruction `i`: the word goes to SP and SP + 1, then SP moves up by 2
modulo 65536; where either byte is out of range, the fault of the first such address and nothing else. -/
def PushEffect (i : Instr) (v : Word) (s : State) : Prop :=
  (s.pushAddr + 1 < s.memSize → ∃ t, exec i s = .next t ∧
    t.readByte s.pushAddr = .ok (Word.lo v) ∧ t.readByte (s.pushAddr + 1) = .ok (Word.hi v) ∧
    (t.reg .sp).toNat = ((s.reg .sp).toNat + 2) % 65536 ∧
    SameRegsBut [.sp] s t ∧ SameMemOutside s.pushAddr 2 s t ∧ SameControl s t) ∧
  (s.memSize ≤ s.pushAddr → RaisesOnly i s (.outOfBounds s.pushAddr)) ∧
  (s.pushAddr < s.memSize → s.memSize ≤ s.pushAddr + 1 → RaisesOnly i s (.outOfBounds (s.pushAddr + 1)))

end Sys2Proof.Stmt

/-- 43_stack.md (`Push`: zero extension is the spec's decision D9, log 15): the immediate is pushed as a word with high
byte 0. -/
def Obligations.PushStoresTheZeroExtendedByte : Prop :=
  Encoded (.push 10) 0x0A01 0x01 .imm8 ∧
  ∀ (imm : Byte) (s : State), s.Inv → ∃ v : Word, v.toNat = imm.toNat ∧ PushEffect (.push imm) v s

/-- R192: `PushReg` pushes the value its register has before SP moves. -/
def Obligations.PushRegStoresTheRegister : Prop :=
  Encoded (.pushReg .a) 0x0003 0x03 .reg ∧
  ∀ (r : Reg) (s : State), s.Inv → PushEffect (.pushReg r) (s.reg r) s

/-- 43_stack.md (`Pop`: the underflow test is the spec's decision D11, log 15): SP below 2 raises StackUnderflow and
changes nothing; otherwise SP goes down by 2 and the word there goes to the register, which keeps it even where it is
SP; a read out of range latches its fault with SP already down. -/
def Obligations.PopLoadsFromTheNewTop : Prop :=
  Encoded (.pop .a) 0x0002 0x02 .reg ∧
  ∀ (r : Reg) (s : State),
    ((s.reg .sp).toNat < 2 → RaisesOnly (.pop r) s .stackUnderflow) ∧
    (2 ≤ (s.reg .sp).toNat →
      (∀ v, s.readWord s.popAddr = .ok v → ∃ t, exec (.pop r) s = .next t ∧ t.reg r = v ∧
        (r ≠ .sp → (t.reg .sp).toNat = (s.reg .sp).toNat - 2) ∧ OnlyRegs [r, .sp] s t) ∧
      (∀ f, s.readWord s.popAddr = .error f → ∃ t, exec (.pop r) s = .next t ∧ t.fault = some f ∧
        (t.reg .sp).toNat = (s.reg .sp).toNat - 2 ∧ SameRegsBut [.sp] s t ∧ SameMem s t ∧ SameRest s t))

/-- 43_stack.md (stack discipline): a `PushReg` and then a `Pop` of a register other than SP returns the pushed value
and brings SP back; the same holds of `Push` with its zero-extended immediate. -/
def Obligations.PopReturnsWhatWasPushed : Prop :=
  ∀ (i : Instr) (v : Word) (q : Reg) (s : State), s.Inv → q ≠ .sp →
    ((∃ r, i = .pushReg r ∧ v = s.reg r) ∨ (∃ imm : Byte, i = .push imm ∧ v.toNat = imm.toNat)) →
    s.pushAddr + 1 < s.memSize → s.pushAddr ≤ 65533 →
      ∃ t u, exec i s = .next t ∧ exec (.pop q) t = .next u ∧ u.reg q = v ∧ u.reg .sp = s.reg .sp ∧
        u.readWord s.pushAddr = .ok v ∧ SameRegsBut [q] s u ∧ SameMemOutside s.pushAddr 2 s u ∧ SameControl s u

/-! ### Branches -/

/-- R201: `Jmp` sets PC to `u16(next + 2 * signed8(off))`, `next` being what PC holds while it executes; nothing else
changes. Offset 0 goes to the next instruction, -1 to the `Jmp` itself, -2 to the instruction before it. -/
def Obligations.JmpAddsTwiceTheOffset : Prop :=
  Encoded (.jmp 0xFF) 0xFF10 0x10 .off8 ∧
  (∀ (off : Byte) (s : State), ∃ t, exec (.jmp off) s = .next t ∧
    ((t.reg .pc).toNat : Int) = (((s.reg .pc).toNat : Int) + 2 * signed8 off) % 65536 ∧ OnlyRegs [.pc] s t) ∧
  (∀ s t : State, About s (.jmp 0) → step s = .next t → t.reg .pc = s.reg .pc + 2) ∧
  (∀ s t : State, About s (.jmp 0xFF) → step s = .next t → t.reg .pc = s.reg .pc) ∧
  (∀ s t : State, About s (.jmp 0xFE) → step s = .next t → t.reg .pc = s.reg .pc - 2)

/-- 44_branch.md (`Je` and `Jne`: polarity is the spec's decision D12, log 15): `Je` is taken exactly when Compare is
1 and `Jne` exactly when it is 0; taken, the target is that of `Jmp`; not taken, nothing changes. -/
def Obligations.ConditionalBranchesTestCompare : Prop :=
  Encoded (.je 2) 0x0211 0x11 .off8 ∧ Encoded (.jne 0xFD) 0xFD12 0x12 .off8 ∧
  ∀ (off : Byte) (s : State),
    (∃ t, exec (.je off) s = .next t ∧ OnlyRegs [.pc] s t ∧ ((t.reg .pc).toNat : Int) =
      if s.flag .compare then (((s.reg .pc).toNat : Int) + 2 * signed8 off) % 65536 else (s.reg .pc).toNat) ∧
    (∃ t, exec (.jne off) s = .next t ∧ OnlyRegs [.pc] s t ∧ ((t.reg .pc).toNat : Int) =
      if s.flag .compare then ((s.reg .pc).toNat : Int)
      else (((s.reg .pc).toNat : Int) + 2 * signed8 off) % 65536)

/-! ### Load and Store -/

/-- R210: `Load` puts the little-endian word at the address in its second register into its first; an address out of
range raises OutOfBounds of the first byte that is, and the destination is not written. -/
def Obligations.LoadReadsTheAddressedWord : Prop :=
  Encoded (.load .b .c) 0x2113 0x13 .reg2 ∧
  ∀ (dst addr : Reg) (s : State),
    (∀ lo hi, s.readByte (s.reg addr).toNat = .ok lo → s.readByte ((s.reg addr).toNat + 1) = .ok hi →
      ∃ t, exec (.load dst addr) s = .next t ∧ (t.reg dst).toNat = hi.toNat * 256 + lo.toNat ∧
        OnlyRegs [dst] s t) ∧
    (s.memSize ≤ (s.reg addr).toNat → RaisesOnly (.load dst addr) s (.outOfBounds (s.reg addr).toNat)) ∧
    ((s.reg addr).toNat < s.memSize → s.memSize ≤ (s.reg addr).toNat + 1 →
      RaisesOnly (.load dst addr) s (.outOfBounds ((s.reg addr).toNat + 1)))

/-- R212: `Store` puts the word in its first register at the address in its second, low byte first; no register is
written, and an address out of range raises OutOfBounds of the first byte that is, with no byte stored. -/
def Obligations.StoreWritesTheAddressedWord : Prop :=
  Encoded (.store .a .c) 0x2014 0x14 .reg2 ∧
  ∀ (value addr : Reg) (s : State), s.Inv →
    (s.regAddr addr + 1 < s.memSize → ∃ t, exec (.store value addr) s = .next t ∧
      t.readByte (s.regAddr addr) = .ok (Word.lo (s.reg value)) ∧
      t.readByte (s.regAddr addr + 1) = .ok (Word.hi (s.reg value)) ∧
      SameMemOutside (s.regAddr addr) 2 s t ∧ SameRegsBut [] s t ∧ SameControl s t) ∧
    (s.memSize ≤ s.regAddr addr → RaisesOnly (.store value addr) s (.outOfBounds (s.regAddr addr))) ∧
    (s.regAddr addr < s.memSize → s.memSize ≤ s.regAddr addr + 1 →
      RaisesOnly (.store value addr) s (.outOfBounds (s.regAddr addr + 1)))

/-! ### Signal -/

/-- 46_signal.md (`Signal`): `Signal id` raises UnknownSignal with no state changed where no handler is registered for
`id`; otherwise the registered handler runs, on registers, `halted` and memory. With the handler that sets `halted`,
`halted` is all that changes. The form of a handler (log 6) and that it changes neither `trace` nor a parameter
(log 17) are the model's. -/
def Obligations.SignalRunsTheRegisteredHandler : Prop :=
  Encoded (.signal 0xF0) 0xF015 0x15 .imm8 ∧
  ∀ (id : Byte) (s : State),
    (s.handler id = none → RaisesOnly (.signal id) s (.unknownSignal id)) ∧
    (∀ h, s.handler id = some h → exec (.signal id) s = .next (s.callHandler id h) ∧
      (s.callHandler id h).trace = s.trace ∧ (s.callHandler id h).cfg = s.cfg) ∧
    (s.handler id = some (.script [.setHalted true]) → ∃ t, exec (.signal id) s = .next t ∧
      t.halted = true ∧ SameRegsBut [] s t ∧ SameMem s t ∧ t.fault = s.fault ∧ t.trace = s.trace)

/-- 46_signal.md (what a handler may do, the spec's decision D20; log 6 and 16): every memory access of a handler is
bounds-checked. A read, wherever in a handler it stands, gives the byte below MEM_SIZE and fails with OutOfBounds of
its address from there on. After a course `p` of any kind: a failure of `p` is latched, whatever was to follow; and
where `p` runs to completion, a write then stores its byte, or latches OutOfBounds of its address with everything that
`p` did kept and no byte changed; a read into a register then loads the byte, or latches OutOfBounds with no register
changed. -/
def Obligations.HandlerAccessesAreBoundsChecked : Prop :=
  (∀ (s : State) (x : HostVal) (a : Nat), s.hostVal x = .ok a →
    (∀ b, s.readByte a = .ok b → s.hostVal (.byte x) = .ok b.toNat) ∧
    (s.memSize ≤ a → s.hostVal (.byte x) = .error (.outOfBounds a))) ∧
  (∀ (id : Byte) (s u : State) (p q : HandlerProg) (f : CoreFault), s.runAsHandler id p = .failed u f →
    s.handler id = some (.prog (p.andThen q)) → exec (.signal id) s = .next (u.raise f)) ∧
  (∀ (id : Byte) (s u : State) (p : HandlerProg) (c : Nat) (x y : HostVal) (a n : Nat), s.Inv →
    s.runAsHandler id p = .done u c → u.hostVal x = .ok a → u.hostVal y = .ok n →
    s.handler id = some (.prog (p.andThen (.act (.writeByte x y) .done))) →
      ∃ t, exec (.signal id) s = .next t ∧ SameRegsBut [] u t ∧ SameRest u t ∧
        (a < s.memSize → t.readByte a = .ok (BitVec.ofNat 8 n) ∧ SameMemOutside a 1 u t ∧ t.fault = u.fault) ∧
        (s.memSize ≤ a → SameMem u t ∧ t.fault = some (.outOfBounds a))) ∧
  (∀ (id : Byte) (s u : State) (p : HandlerProg) (c : Nat) (r : Reg) (x : HostVal) (a : Nat),
    s.runAsHandler id p = .done u c → u.hostVal x = .ok a →
    s.handler id = some (.prog (p.andThen (.act (.setReg r (.byte x)) .done))) →
      ∃ t, exec (.signal id) s = .next t ∧ SameMem u t ∧ SameRest u t ∧
        (∀ b, u.readByte a = .ok b → (t.reg r).toNat = b.toNat ∧ SameRegsBut [r] u t ∧ t.fault = u.fault) ∧
        (s.memSize ≤ a → SameRegsBut [] u t ∧ t.fault = some (.outOfBounds a)))

/-! ### Whole-machine rules -/

/-- 40_step_and_nop.md section 1 and 46_signal.md (only a handler writes `halted`): every instruction that calls no
handler leaves `halted` as it was. -/
def Obligations.OnlyHandlersChangeHalted : Prop :=
  ∀ (i : Instr) (s t : State), exec i s = .next t → t.halted ≠ s.halted → CallsHandler i s

/-- 20_memory.md section 1 and 10_state.md section 4 (the parameters are fixed for the life of the machine; only the
host writes `trace`): no step changes either. -/
def Obligations.StepsKeepTheParameters : Prop :=
  ∀ s t : State, step s = .next t → t.cfg = s.cfg ∧ t.trace = s.trace

/-- 10_state.md section 1 (implicit uses): what an instruction that calls no handler writes. A register changes only
if it is the destination operand, or is SP in a stack instruction, PC in a branch, or FL in an arithmetic, logic or
compare instruction. -/
def Obligations.RegistersWrittenImplicitly : Prop :=
  ∀ (i : Instr) (s t : State) (r : Reg), exec i s = .next t → ¬ CallsHandler i s → t.reg r ≠ s.reg r →
    dest i = some r ∨
    (r = .sp ∧ i.mnemonic ∈ [Mnemonic.push, .pushReg, .pop]) ∨
    (r = .pc ∧ i.mnemonic ∈ [Mnemonic.jmp, .je, .jne]) ∨
    (r = .fl ∧ i.mnemonic ∈ [Mnemonic.add, .sub, .mul, .div, .shl, .shr, .and, .or, .xor, .not, .cmp])

/-- 20_memory.md section 4 (what each instruction touches): an instruction that calls no handler changes a byte of
memory only if it is `Push` or `PushReg`, at the two bytes from SP on, or `Store`, at the two bytes from its address
register's value on. -/
def Obligations.MemoryChangesOnlyWhereStored : Prop :=
  ∀ (i : Instr) (s t : State) (a : Nat), s.Inv → exec i s = .next t → ¬ CallsHandler i s →
    t.readByte a ≠ s.readByte a →
      (i.mnemonic ∈ [Mnemonic.push, .pushReg] ∧ (a = s.pushAddr ∨ a = s.pushAddr + 1)) ∨
      (∃ value addr, i = .store value addr ∧ (a = s.regAddr addr ∨ a = s.regAddr addr + 1))

/-- 10_state.md section 1 (A, B, C, D and BP are never used implicitly): an instruction other than `Signal` that does
not name one of them neither writes it nor acts differently for what it holds. -/
def Obligations.UnnamedRegistersDoNotMatter : Prop :=
  ∀ (i : Instr) (s : State) (r : Reg) (v : Word), r ∈ [Reg.a, .b, .c, .d, .bp] → r ∉ operandRegs i →
    i.mnemonic ≠ .signal → exec i (s.setReg r v) = mapNext (fun t => t.setReg r v) (exec i s)

/-- 10_state.md section 4 (the debug-trace flag has no effect, the spec's decision D27, log 10): a step from a state
with `trace` set otherwise is the same step, with `trace` set otherwise after it. -/
def Obligations.TraceIsNeverObserved : Prop :=
  ∀ (s : State) (b : Bool), step { s with trace := b } = mapNext (fun t => { t with trace := b }) (step s)

/-- The invariant holds after reset of every machine whose parameters meet their constraints, and of the one the
interface starts (00_scope.md section 3, 20_memory.md section 1). -/
def Obligations.ResetMeetsInvariant : Prop :=
  (∀ c : Config, c.wf → (State.resetWith c).Inv) ∧ Sys2Proof.core.reset.Inv

/-- Every step keeps the invariant: parameters that meet their constraints, memory in its canonical form, and nothing
stored at or above MEM_SIZE (00_scope.md section 3, 20_memory.md section 1). -/
def Obligations.StepKeepsInvariant : Prop :=
  ∀ s t : State, s.Inv → step s = .next t → t.Inv

/-! ### Handlers as relations, and the loaded program -/

/-- 46_signal.md (handlers are relations, the spec's decision D20; the form of a handler is the model's, log 6 and 7):
what a handler does may depend on what it sees, and need not be known. A handler that asks something goes on as the
answer says, and a question that reads outside memory is latched as OutOfBounds; a handler that chooses does what one
of its courses does; a register that takes any value is the only one changed; so too a byte of memory that takes any
value, where its address is in range. -/
def Obligations.HandlersBranchAndChoose : Prop :=
  ∀ (id : Byte) (s : State),
    (∀ (b : HostCond) (p q : HandlerProg), s.handler id = some (.prog (.ite b p q)) →
      (∀ yes, s.hostCond b = .ok yes →
        exec (.signal id) s = .next (s.runAsHandler id (if yes then p else q)).state) ∧
      (∀ f, s.hostCond b = .error f → (∃ a, s.memSize ≤ a ∧ f = .outOfBounds a) ∧
        exec (.signal id) s = .next (s.countDraw.raise f))) ∧
    (∀ p q : HandlerProg, s.handler id = some (.prog (.choose p q)) →
      ∃ c, exec (.signal id) s = .next (s.countDraw.runHandler c p).state ∨
        exec (.signal id) s = .next (s.countDraw.runHandler c q).state) ∧
    (∀ r, s.handler id = some (.script [.anyReg r]) →
      ∃ t, exec (.signal id) s = .next t ∧ OnlyRegs [r] s.countDraw t) ∧
    (∀ a, s.Inv → a < s.memSize → s.handler id = some (.script [.anyByte (.lit a)]) →
      ∃ t, exec (.signal id) s = .next t ∧ SameRegsBut [] s t ∧ SameMemOutside a 1 s t ∧ SameControl s.countDraw t) ∧
    (s.handler id = some (.prog (.ite (.eq (.reg .a) (.lit 0)) (.act (.setHalted true) .done) .done)) →
      ∃ t, exec (.signal id) s = .next t ∧ t.halted = (decide (s.reg .a = 0) || s.halted) ∧ SameRegsBut [] s t ∧
        SameMem s t ∧ t.fault = s.fault ∧ t.trace = s.trace ∧ t.cfg = s.cfg)

/-- 70_reset_and_hazards.md section 1 and 00_scope.md section 3 (program load, the spec's decision D21, log 18): on a
machine whose parameters meet their constraints, loading a program after reset succeeds exactly where the program fits
into memory; then PC = 0 is its entry: byte `i` of the program is at address `i`, the first fetch reads its first two
bytes, the low byte first; memory outside it is 0, and everything else is as reset left it. -/
def Obligations.LoadedProgramStartsAtPc : Prop :=
  ∀ (c : Config) (image : List Byte), c.wf →
    ((∃ t, (State.resetWith c).loadProgram image = .ok t) ↔ image.length ≤ c.memSize) ∧
    ∀ t, (State.resetWith c).loadProgram image = .ok t →
      (∀ i b, image[i]? = some b → t.readByte i = .ok b) ∧
      (∀ a, image.length ≤ a → a < c.memSize → t.readByte a = .ok 0) ∧
      (∀ lo hi rest, image = lo :: hi :: rest → t.fetch = .ok (Word.ofBytes lo hi)) ∧
      t.condition = .running ∧ SameRegsBut [] (State.resetWith c) t ∧ SameControl (State.resetWith c) t
end

