-- ==== Sys2Proof/Laws/Bits.lean ====
section
/-! SUPPORT. Fields of a word, and single bits of FL. -/

namespace Sys2Proof

@[simp] theorem lo_ofBytes (lo hi : Byte) : Word.lo (Word.ofBytes lo hi) = lo := by
  ext i hi'
  simp only [Word.lo, Word.ofBytes, BitVec.getElem_extractLsb', BitVec.getLsbD_append]
  simp [hi']

@[simp] theorem hi_ofBytes (lo hi : Byte) : Word.hi (Word.ofBytes lo hi) = hi := by
  ext i hi'
  simp only [Word.hi, Word.ofBytes, BitVec.getElem_extractLsb', BitVec.getLsbD_append]
  simp [hi']

/-- A word is the word of its two bytes. -/
@[simp] theorem ofBytes_lo_hi (w : Word) : Word.ofBytes (Word.lo w) (Word.hi w) = w := by
  ext i hi'
  simp only [Word.ofBytes, Word.lo, Word.hi, ← BitVec.getLsbD_eq_getElem, BitVec.getLsbD_append,
    BitVec.getLsbD_extractLsb']
  by_cases h : i < 8
  · simp [h]
  · have : i - 8 < 8 := by omega
    have e : 8 + (i - 8) = i := by omega
    simp [h, this, e]

/-- The value of a word in terms of its two bytes. -/
theorem ofBytes_toNat (lo hi : Byte) : (Word.ofBytes lo hi).toNat = hi.toNat * 256 + lo.toNat := by
  have := lo.isLt
  rw [Word.ofBytes, BitVec.toNat_append, Nat.shiftLeft_eq, Nat.mul_comm, ← Nat.two_pow_add_eq_or_of_lt this]

@[simp] theorem r1_ofBytes_ofNibbles (lo : Byte) (x y : Nibble) :
    Word.r1 (Word.ofBytes lo (Byte.ofNibbles x y)) = x := by
  ext i hi'
  have h8 : ¬ 8 + i < 8 := by omega
  simp only [Word.r1, Word.ofBytes, Byte.ofNibbles, BitVec.getElem_extractLsb', BitVec.getLsbD_append, h8]
  simp [hi']

@[simp] theorem r2_ofBytes_ofNibbles (lo : Byte) (x y : Nibble) :
    Word.r2 (Word.ofBytes lo (Byte.ofNibbles x y)) = y := by
  ext i hi'
  have h8 : ¬ 12 + i < 8 := by omega
  have e : 12 + i - 8 = 4 + i := by omega
  have h4 : ¬ 4 + i < 4 := by omega
  simp only [Word.r2, Word.ofBytes, Byte.ofNibbles, BitVec.getElem_extractLsb', BitVec.getLsbD_append, h8, e, h4]
  simp [BitVec.getLsbD_eq_getElem hi']

/-- The value of an operand byte in terms of its two register fields. -/
theorem ofNibbles_toNat (x y : Nibble) : (Byte.ofNibbles x y).toNat = y.toNat * 16 + x.toNat := by
  have := x.isLt
  rw [Byte.ofNibbles, BitVec.toNat_append, Nat.shiftLeft_eq, Nat.mul_comm, ← Nat.two_pow_add_eq_or_of_lt this]

/-- The two register fields of a word make up its operand byte. -/
theorem ofNibbles_r1_r2 (w : Word) : Byte.ofNibbles (Word.r1 w) (Word.r2 w) = Word.hi w := by
  ext i hi'
  simp only [Byte.ofNibbles, Word.r1, Word.r2, Word.hi, ← BitVec.getLsbD_eq_getElem, BitVec.getLsbD_append,
    BitVec.getLsbD_extractLsb']
  by_cases h : i < 4
  · have : i < 8 := by omega
    simp [h, this]
  · have h4 : i - 4 < 4 := by omega
    have h8 : i < 8 := by omega
    have e : 12 + (i - 4) = 8 + i := by omega
    simp [h, h4, h8, e]

@[simp] theorem u16_toNat (n : Nat) : (u16 n).toNat = n % 65536 := by simp [u16]

@[simp] theorem u16Int_toNat (k : Int) : (u16Int k).toNat = (k % 65536).toNat := by simp [u16Int]

/-- Replacing one bit changes that bit only (00_scope.md R11). -/
theorem bitAt_replaceBit (v : Word) (p : Nat) (b : Bool) (hp : p < 16) (k : Nat) :
    bitAt (replaceBit v p b) k = if k = p then b else bitAt v k := by
  by_cases hk : k < 16
  · by_cases h : k = p
    · subst h; cases b <;> simp [replaceBit, bitAt, hk]
    · by_cases h' : k < p
      · cases b <;> simp [replaceBit, bitAt, hk, h, h']
      · have : k - p ≠ 0 := by omega
        cases b <;> simp [replaceBit, bitAt, hk, h, h', this]
  · have : k ≠ p := by omega
    have h' : 16 ≤ k := by omega
    simp [bitAt, this, BitVec.getLsbD_of_ge _ _ h']

theorem FlagBits.get_lt (p : FlagBits) (f : Flag) : p.get f < 16 := by
  cases f
  · exact p.compare.isLt
  · exact p.negative.isLt
  · exact p.overflow.isLt

/-- With FLBIT injective, different flags stand at different bits. -/
theorem FlagBits.get_ne {p : FlagBits} (hp : p.wf) {f g : Flag} (h : f ≠ g) : p.get f ≠ p.get g := by
  obtain ⟨h1, h2, h3⟩ := hp
  cases f <;> cases g <;> simp_all [FlagBits.get, Fin.ext_iff, eq_comm]

/-- Reading a flag after a flag was written. -/
theorem readFlag_writeFlag {p : FlagBits} (hp : p.wf) (fl : Word) (f g : Flag) (b : Bool) :
    readFlag p (writeFlag p fl f b) g = if g = f then b else readFlag p fl g := by
  unfold readFlag writeFlag
  rw [bitAt_replaceBit _ _ _ (p.get_lt f)]
  by_cases h : g = f
  · simp [h]
  · simp [h, FlagBits.get_ne hp h]

/-- A bit that is no flag is not changed by writing a flag. -/
theorem bitAt_writeFlag_other {p : FlagBits} (fl : Word) (f : Flag) (b : Bool) {k : Nat} (h : k ≠ p.get f) :
    bitAt (writeFlag p fl f b) k = bitAt fl k := by
  unfold writeFlag
  rw [bitAt_replaceBit _ _ _ (p.get_lt f)]
  simp [h]

/-- The three flags after `setflags(ov, r)` (00_scope.md R11). -/
theorem readFlag_resultFlags {p : FlagBits} (hp : p.wf) (fl : Word) (ov : Bool) (r : Word) (f : Flag) :
    readFlag p (resultFlags p fl ov r) f =
      match f with
      | .overflow => ov
      | .negative => bitAt r 15
      | .compare => (r == 0) := by
  cases f <;> simp [resultFlags, readFlag_writeFlag hp]

/-- The other bits of FL after `setflags(ov, r)` (00_scope.md R11). -/
theorem bitAt_resultFlags_other {p : FlagBits} (fl : Word) (ov : Bool) (r : Word) {k : Nat}
    (h : ∀ f, k ≠ p.get f) : bitAt (resultFlags p fl ov r) k = bitAt fl k := by
  simp [resultFlags, bitAt_writeFlag_other _ _ _ (h _)]

/-- The flags after a comparison: Overflow stays (42_mov_cmp.md R182). -/
theorem readFlag_compareFlags {p : FlagBits} (hp : p.wf) (fl x y : Word) (f : Flag) :
    readFlag p (compareFlags p fl x y) f =
      match f with
      | .overflow => readFlag p fl .overflow
      | .negative => decide (x.toNat < y.toNat)
      | .compare => (x == y) := by
  cases f <;> simp [compareFlags, readFlag_writeFlag hp]

/-- The other bits of FL after a comparison (42_mov_cmp.md R182). -/
theorem bitAt_compareFlags_other {p : FlagBits} (fl x y : Word) {k : Nat}
    (h : ∀ f, k ≠ p.get f) : bitAt (compareFlags p fl x y) k = bitAt fl k := by
  simp [compareFlags, bitAt_writeFlag_other _ _ _ (h _)]

/-- Two words with the same 16 bits are equal. -/
theorem Word.ext_bitAt {v w : Word} (h : ∀ k, k < 16 → bitAt v k = bitAt w k) : v = w := by
  ext k hk
  simpa [bitAt, BitVec.getLsbD_eq_getElem hk] using h k hk

end Sys2Proof
end

