-- ==== Sys2Proof/Laws/State.lean ====
section
/-! SUPPORT. The small lemmas of the register file and of the state's updates: one per field per update, so that no
later proof unfolds a record update. -/

namespace Sys2Proof

@[simp] theorem Reg.mem_all (r : Reg) : r ∈ Reg.all := by cases r <;> decide

@[simp] theorem Mnemonic.mem_all (m : Mnemonic) : m ∈ Mnemonic.all := by cases m <;> decide

/-- Reading a table after one entry was replaced. -/
theorem PerReg.get_set {α : Type} (t : PerReg α) (r q : Reg) (v : α) :
    (t.set r v).get q = if q = r then v else t.get q := by
  cases r <;> cases q <;> rfl

@[simp] theorem PerReg.get_set_same {α : Type} (t : PerReg α) (r : Reg) (v : α) : (t.set r v).get r = v := by
  simp [PerReg.get_set]

theorem PerReg.get_set_ne {α : Type} (t : PerReg α) {r q : Reg} (v : α) (h : q ≠ r) :
    (t.set r v).get q = t.get q := by
  simp [PerReg.get_set, h]

@[simp] theorem PerReg.get_const {α : Type} (v : α) (r : Reg) : (PerReg.const v).get r = v := by cases r <;> rfl

/-- Two register tables with the same entries are equal. -/
theorem PerReg.ext_get {α : Type} {t u : PerReg α} (h : ∀ r, t.get r = u.get r) : t = u := by
  cases t; cases u
  simp only [PerReg.mk.injEq]
  exact ⟨h .a, h .b, h .c, h .d, h .sp, h .pc, h .bp, h .fl⟩

@[simp] theorem PerReg.set_set_same {α : Type} (t : PerReg α) (r : Reg) (v w : α) :
    (t.set r v).set r w = t.set r w := by cases r <;> rfl

@[simp] theorem PerReg.set_get {α : Type} (t : PerReg α) (r : Reg) : t.set r (t.get r) = t := by cases r <;> rfl

namespace Machine

section Registers
variable (s : State) (r q : Reg) (v : Word)

theorem reg_setReg : (s.setReg r v).reg q = if q = r then v else s.reg q := PerReg.get_set ..
@[simp] theorem reg_setReg_same : (s.setReg r v).reg r = v := by simp [reg_setReg]
theorem reg_setReg_ne (h : q ≠ r) : (s.setReg r v).reg q = s.reg q := by simp [reg_setReg, h]
@[simp] theorem setReg_mem : (s.setReg r v).mem = s.mem := rfl
@[simp] theorem setReg_halted : (s.setReg r v).halted = s.halted := rfl
@[simp] theorem setReg_fault : (s.setReg r v).fault = s.fault := rfl
@[simp] theorem setReg_trace : (s.setReg r v).trace = s.trace := rfl
@[simp] theorem setReg_cfg : (s.setReg r v).cfg = s.cfg := rfl
@[simp] theorem setReg_hostDraws : (s.setReg r v).hostDraws = s.hostDraws := rfl
@[simp] theorem setReg_memSize : (s.setReg r v).memSize = s.memSize := rfl
@[simp] theorem setReg_readByte (a : Nat) : (s.setReg r v).readByte a = s.readByte a := rfl
@[simp] theorem setReg_readWord (a : Nat) : (s.setReg r v).readWord a = s.readWord a := rfl
@[simp] theorem setReg_handler (id : Byte) : (s.setReg r v).handler id = s.handler id := rfl
@[simp] theorem setReg_setReg_same (w : Word) : (s.setReg r v).setReg r w = s.setReg r w := by
  simp [State.setReg]
@[simp] theorem setReg_reg : s.setReg r (s.reg r) = s := by simp [State.setReg, State.reg]

end Registers

section Raise
variable (s : State) (f : CoreFault)

@[simp] theorem raise_reg (r : Reg) : (s.raise f).reg r = s.reg r := rfl
@[simp] theorem raise_mem : (s.raise f).mem = s.mem := rfl
@[simp] theorem raise_halted : (s.raise f).halted = s.halted := rfl
@[simp] theorem raise_fault : (s.raise f).fault = some f := rfl
@[simp] theorem raise_trace : (s.raise f).trace = s.trace := rfl
@[simp] theorem raise_cfg : (s.raise f).cfg = s.cfg := rfl
@[simp] theorem raise_hostDraws : (s.raise f).hostDraws = s.hostDraws := rfl
@[simp] theorem raise_memSize : (s.raise f).memSize = s.memSize := rfl
@[simp] theorem raise_readByte (a : Nat) : (s.raise f).readByte a = s.readByte a := rfl

end Raise

section Flags
variable (s : State) (ov : Bool) (r : Word)

@[simp] theorem setFlags_reg_fl :
    (s.setFlags ov r).reg .fl = resultFlags s.cfg.flbit (s.reg .fl) ov r := reg_setReg_same ..
theorem setFlags_reg_ne {q : Reg} (h : q ≠ .fl) : (s.setFlags ov r).reg q = s.reg q := reg_setReg_ne _ _ _ _ h
@[simp] theorem setFlags_mem : (s.setFlags ov r).mem = s.mem := rfl
@[simp] theorem setFlags_halted : (s.setFlags ov r).halted = s.halted := rfl
@[simp] theorem setFlags_fault : (s.setFlags ov r).fault = s.fault := rfl
@[simp] theorem setFlags_trace : (s.setFlags ov r).trace = s.trace := rfl
@[simp] theorem setFlags_cfg : (s.setFlags ov r).cfg = s.cfg := rfl
@[simp] theorem setFlags_hostDraws : (s.setFlags ov r).hostDraws = s.hostDraws := rfl
@[simp] theorem setFlags_readByte (a : Nat) : (s.setFlags ov r).readByte a = s.readByte a := rfl

end Flags

section WriteResult
variable (s : State) (dst : Reg) (res : Word × Bool)

/-- FL after an arithmetic or logic instruction: the flag bits of the result over the old FL, or over the result
where FL is the destination. -/
theorem writeResult_reg_fl :
    (s.writeResult dst res).reg .fl =
      resultFlags s.cfg.flbit (if dst = .fl then res.1 else s.reg .fl) res.2 res.1 := by
  by_cases h : dst = .fl
  · subst h; simp [State.writeResult]
  · simp [State.writeResult, reg_setReg, h, Ne.symm h]

/-- A register other than FL after an arithmetic or logic instruction. -/
theorem writeResult_reg_ne {q : Reg} (h : q ≠ .fl) :
    (s.writeResult dst res).reg q = if q = dst then res.1 else s.reg q := by
  simp [State.writeResult, setFlags_reg_ne _ _ _ h, reg_setReg]

@[simp] theorem writeResult_mem : (s.writeResult dst res).mem = s.mem := rfl
@[simp] theorem writeResult_halted : (s.writeResult dst res).halted = s.halted := rfl
@[simp] theorem writeResult_fault : (s.writeResult dst res).fault = s.fault := rfl
@[simp] theorem writeResult_trace : (s.writeResult dst res).trace = s.trace := rfl
@[simp] theorem writeResult_cfg : (s.writeResult dst res).cfg = s.cfg := rfl
@[simp] theorem writeResult_hostDraws : (s.writeResult dst res).hostDraws = s.hostDraws := rfl
@[simp] theorem writeResult_readByte (a : Nat) : (s.writeResult dst res).readByte a = s.readByte a := rfl

end WriteResult

@[simp] theorem resetWith_reg (c : Config) (r : Reg) : (State.resetWith c).reg r = 0 := PerReg.get_const ..

@[simp] theorem advancePc_reg_pc (s : State) : s.advancePc.reg .pc = u16 ((s.reg .pc).toNat + 2) :=
  reg_setReg_same ..

theorem advancePc_reg_ne (s : State) {q : Reg} (h : q ≠ .pc) : s.advancePc.reg q = s.reg q :=
  reg_setReg_ne _ _ _ _ h

@[simp] theorem dropWord_reg_sp (s : State) : s.dropWord.reg .sp = u16 s.popAddr := reg_setReg_same ..

theorem dropWord_reg_ne (s : State) {q : Reg} (h : q ≠ .sp) : s.dropWord.reg q = s.reg q :=
  reg_setReg_ne _ _ _ _ h

end Machine

end Sys2Proof
end

