-- ==== Sys2Proof/Laws/Decode.lean ====
section
/-! SUPPORT. The lookups of the decoder, and what an accepted or rejected word says. -/

namespace Sys2Proof

theorem OpcMap.get_of_find {o : OpcMap} {b : Byte} {m : Mnemonic} (h : o.find b = some m) : o.get m = b := by
  simpa using List.find?_some h

theorem OpcMap.find_eq_none_iff {o : OpcMap} {b : Byte} : o.find b = none ↔ ∀ m, o.get m ≠ b := by
  simp [OpcMap.find, List.find?_eq_none]

/-- Two mnemonics with the same opcode are the same, where OPC is injective. -/
theorem OpcMap.get_inj {o : OpcMap} (h : o.wf) {m n : Mnemonic} (e : o.get m = o.get n) : m = n :=
  List.inj_on_of_nodup_map h (by simp) (by simp) e

theorem OpcMap.find_get {o : OpcMap} (h : o.wf) (m : Mnemonic) : o.find (o.get m) = some m := by
  cases hf : o.find (o.get m) with
  | none => exact absurd rfl (OpcMap.find_eq_none_iff.mp hf m)
  | some n => exact congrArg some (OpcMap.get_inj h (OpcMap.get_of_find hf))

theorem RegMap.get_of_find {g : RegMap} {n : Nibble} {r : Reg} (h : RegMap.find g n = some r) : g.get r = n := by
  simpa using List.find?_some h

theorem RegMap.find_eq_none_iff {g : RegMap} {n : Nibble} : RegMap.find g n = none ↔ ∀ r, g.get r ≠ n := by
  simp [RegMap.find, List.find?_eq_none]

/-- Two registers with the same number are the same, where REGIDX is a bijection. -/
theorem RegMap.get_inj {g : RegMap} (h : RegMap.wf g) {r q : Reg} (e : g.get r = g.get q) : r = q :=
  List.inj_on_of_nodup_map h.1 (by simp) (by simp) e

theorem RegMap.find_get {g : RegMap} (h : RegMap.wf g) (r : Reg) : RegMap.find g (g.get r) = some r := by
  cases hf : RegMap.find g (g.get r) with
  | none => exact absurd rfl (RegMap.find_eq_none_iff.mp hf r)
  | some q => exact congrArg some (RegMap.get_inj h (RegMap.get_of_find hf))

theorem RegMap.get_le {g : RegMap} (h : RegMap.wf g) (r : Reg) : (g.get r).toNat ≤ 7 := h.2 r (by simp)

/-- REGIDX being a bijection onto 0..7, every number up to 7 names a register. -/
theorem RegMap.exists_get {g : RegMap} (h : RegMap.wf g) {n : Nibble} (hn : n.toNat ≤ 7) : ∃ r, g.get r = n := by
  have hsub : Reg.all.map g.get ⊆ (List.range 8).map (BitVec.ofNat 4) := by
    intro x hx
    obtain ⟨r, _, rfl⟩ := List.mem_map.mp hx
    exact List.mem_map.mpr ⟨(g.get r).toNat, List.mem_range.mpr (by have := RegMap.get_le h r; omega), by simp⟩
  have hperm : List.Perm (Reg.all.map g.get) ((List.range 8).map (BitVec.ofNat 4)) :=
    (List.subperm_of_subset h.1 hsub).perm_of_length_le (by simp [Reg.all])
  have hmem : n ∈ Reg.all.map g.get :=
    hperm.mem_iff.mpr (List.mem_map.mpr ⟨n.toNat, List.mem_range.mpr (by omega), by simp⟩)
  obtain ⟨r, _, hr⟩ := List.mem_map.mp hmem
  exact ⟨r, hr⟩

/-- A one-register field is accepted exactly when it names a register. -/
theorem decodeReg_ok {g : RegMap} {w : Word} {k : Reg → Instr} {i : Instr} (h : decodeReg g w k = .ok i) :
    ∃ x, g.get x = Word.r1 w ∧ i = k x := by
  unfold decodeReg at h
  split at h
  · cases h
  · rename_i x hx; cases h; exact ⟨x, RegMap.get_of_find hx, rfl⟩

/-- Two register fields are accepted exactly when both name registers. -/
theorem decodeReg2_ok {g : RegMap} {w : Word} {k : Reg → Reg → Instr} {i : Instr}
    (h : decodeReg2 g w k = .ok i) :
    ∃ x y, g.get x = Word.r1 w ∧ g.get y = Word.r2 w ∧ i = k x y := by
  unfold decodeReg2 at h
  split at h
  · cases h
  · rename_i x hx
    split at h
    · cases h
    · rename_i y hy; cases h; exact ⟨x, y, RegMap.get_of_find hx, RegMap.get_of_find hy, rfl⟩

theorem decodeReg_of_get {g : RegMap} (hg : RegMap.wf g) {w : Word} {x : Reg} (k : Reg → Instr)
    (h : g.get x = Word.r1 w) : decodeReg g w k = .ok (k x) := by
  simp [decodeReg, ← h, RegMap.find_get hg]

theorem decodeReg2_of_get {g : RegMap} (hg : RegMap.wf g) {w : Word} {x y : Reg} (k : Reg → Reg → Instr)
    (hx : g.get x = Word.r1 w) (hy : g.get y = Word.r2 w) : decodeReg2 g w k = .ok (k x y) := by
  simp [decodeReg2, ← hx, ← hy, RegMap.find_get hg]

/-- What the decoder looks up first. -/
theorem decode_eq_of_find {e : Encoding} {w : Word} {m : Mnemonic} (h : e.opc.find (Word.lo w) = some m) :
    decode e w = decodeOperands e.regidx w m := by
  simp [decode, h]

theorem decode_eq_of_not_opcode {e : Encoding} {w : Word} (h : ∀ m, e.opc.get m ≠ Word.lo w) :
    decode e w = .error (.unknownOpcode (Word.lo w)) := by
  simp [decode, OpcMap.find_eq_none_iff.mpr h]

/-- An accepted word has the opcode of the instruction it decodes to. -/
theorem opcode_of_decode {e : Encoding} {w : Word} {i : Instr} (h : decode e w = .ok i) :
    ∃ m, e.opc.get m = Word.lo w ∧ decodeOperands e.regidx w m = .ok i := by
  unfold decode at h
  split at h
  · cases h
  · rename_i m hm; exact ⟨m, OpcMap.get_of_find hm, h⟩

@[simp] theorem encode_lo (e : Encoding) (i : Instr) : Word.lo (encode e i) = e.opc.get i.mnemonic := by
  simp [encode]

@[simp] theorem encode_hi (e : Encoding) (i : Instr) : Word.hi (encode e i) = operandByte e.regidx i.operands := by
  simp [encode]

end Sys2Proof
end

