-- ==== Sys2Proof/Laws/Memory.lean ====
section
/-! SUPPORT. Memory as a canonical list: read after write, and every write keeps the canonical form. -/

namespace Sys2Proof

@[simp] theorem Memory.read_nil (a : Nat) : Memory.read [] a = 0 := rfl

theorem Memory.read_cons (k : Nat) (v : Byte) (m : Memory) (a : Nat) :
    Memory.read ((k, v) :: m) a = if a = k then v else Memory.read m a := rfl

theorem Memory.wf_nil : Memory.wf [] := ⟨List.Pairwise.nil, by simp⟩

theorem Memory.wf_tail {e : Host.Cell} {m : Memory} (h : Memory.wf (e :: m)) : Memory.wf m :=
  ⟨(List.pairwise_cons.mp h.1).2, fun x hx => h.2 x (List.mem_cons_of_mem _ hx)⟩

theorem Memory.wf_cons {k : Nat} {v : Byte} {m : Memory} (hm : Memory.wf m) (hv : v ≠ 0)
    (hk : ∀ e ∈ m, k < e.1) : Memory.wf ((k, v) :: m) :=
  ⟨List.pairwise_cons.mpr ⟨hk, hm.1⟩, by
    intro e he
    rcases List.mem_cons.mp he with rfl | he
    · exact hv
    · exact hm.2 e he⟩

/-- In a canonical list an address below every listed one reads as unlisted. -/
theorem Memory.read_of_lt {m : Memory} {a : Nat} (h : ∀ e ∈ m, a < e.1) : Memory.read m a = 0 := by
  induction m with
  | nil => rfl
  | cons e m ih =>
    obtain ⟨k, v⟩ := e
    have hk : a < k := h (k, v) (by simp)
    rw [Memory.read_cons, if_neg (by omega)]
    exact ih fun e he => h e (List.mem_cons_of_mem _ he)

theorem Memory.read_consCell {m : Memory} (a : Nat) (b : Byte) (h : ∀ e ∈ m, a < e.1) (x : Nat) :
    Memory.read (Memory.consCell a b m) x = if x = a then b else Memory.read m x := by
  by_cases hb : b = Memory.unlisted
  · by_cases hx : x = a
    · subst hx; simp [Memory.consCell, hb, Memory.read_of_lt h, Memory.unlisted]
    · simp [Memory.consCell, hb, hx]
  · simp [Memory.consCell, hb, Memory.read_cons]

theorem Memory.mem_consCell {m : Memory} {a : Nat} {b : Byte} {e : Host.Cell}
    (h : e ∈ Memory.consCell a b m) : e = (a, b) ∨ e ∈ m := by
  unfold Memory.consCell at h
  split at h
  · exact .inr h
  · simpa using h

theorem Memory.wf_consCell {m : Memory} (a : Nat) (b : Byte) (hm : Memory.wf m) (h : ∀ e ∈ m, a < e.1) :
    Memory.wf (Memory.consCell a b m) := by
  unfold Memory.consCell
  split
  · exact hm
  · rename_i hb; exact Memory.wf_cons hm hb h

/-- The cells after a write are the cells before it and the one written. -/
theorem Memory.mem_write {m : Memory} {a : Nat} {b : Byte} {e : Host.Cell} (h : e ∈ Memory.write m a b) :
    e = (a, b) ∨ e ∈ m := by
  induction m with
  | nil => exact Memory.mem_consCell h
  | cons c m ih =>
    obtain ⟨k, v⟩ := c
    unfold Memory.write at h
    split at h
    · exact Memory.mem_consCell h
    · split at h
      · rcases Memory.mem_consCell h with h | h
        · exact .inl h
        · exact .inr (List.mem_cons_of_mem _ h)
      · rcases List.mem_cons.mp h with h | h
        · exact .inr (by simp [h])
        · rcases ih h with h | h
          · exact .inl h
          · exact .inr (List.mem_cons_of_mem _ h)

/-- A write keeps the canonical form. -/
theorem Memory.wf_write {m : Memory} (hm : Memory.wf m) (a : Nat) (b : Byte) : Memory.wf (Memory.write m a b) := by
  induction m with
  | nil => exact Memory.wf_consCell a b Memory.wf_nil (by simp)
  | cons c m ih =>
    obtain ⟨k, v⟩ := c
    have hk : ∀ e ∈ m, k < e.1 := (List.pairwise_cons.mp hm.1).1
    have hm' := Memory.wf_tail hm
    unfold Memory.write
    split
    · rename_i hlt
      refine Memory.wf_consCell a b hm fun e he => ?_
      rcases List.mem_cons.mp he with rfl | he
      · exact hlt
      · exact lt_trans hlt (hk e he)
    · split
      · rename_i _ heq
        subst heq
        exact Memory.wf_consCell a b hm' hk
      · rename_i h1 h2
        refine Memory.wf_cons (ih hm') (hm.2 (k, v) (by simp)) fun e he => ?_
        rcases Memory.mem_write he with rfl | he
        · simp only; omega
        · exact hk e he

/-- A read after a write gives the value written there, and every other address reads as before
(20_memory.md R62 and R63). -/
theorem Memory.read_write {m : Memory} (hm : Memory.wf m) (a : Nat) (b : Byte) (x : Nat) :
    Memory.read (Memory.write m a b) x = if x = a then b else Memory.read m x := by
  induction m with
  | nil => exact Memory.read_consCell a b (by simp) x
  | cons c m ih =>
    obtain ⟨k, v⟩ := c
    have hk : ∀ e ∈ m, k < e.1 := (List.pairwise_cons.mp hm.1).1
    unfold Memory.write
    split
    · rename_i hlt
      refine Memory.read_consCell a b (fun e he => ?_) x
      rcases List.mem_cons.mp he with rfl | he
      · exact hlt
      · exact lt_trans hlt (hk e he)
    · split
      · rename_i _ heq
        subst heq
        rw [Memory.read_consCell a b hk]
        by_cases hx : x = a <;> simp [Memory.read_cons, hx]
      · rename_i h1 h2
        rw [Memory.read_cons, Memory.read_cons, ih (Memory.wf_tail hm)]
        by_cases hx : x = k
        · subst hx; simp [Ne.symm h2]
        · simp [hx]

/-- A byte of a canonical list is 0 exactly where no cell is listed. -/
theorem Memory.mem_of_read_ne {m : Memory} {a : Nat} (h : Memory.read m a ≠ 0) : (a, Memory.read m a) ∈ m := by
  induction m with
  | nil => simp at h
  | cons c m ih =>
    obtain ⟨k, v⟩ := c
    rw [Memory.read_cons] at h ⊢
    by_cases hx : a = k
    · simp [hx]
    · simp only [hx, if_false] at h ⊢
      exact List.mem_cons_of_mem _ (ih h)

theorem Memory.read_of_mem {m : Memory} (hm : Memory.wf m) {e : Host.Cell} (h : e ∈ m) :
    Memory.read m e.1 = e.2 := by
  induction m with
  | nil => simp at h
  | cons c m ih =>
    obtain ⟨k, v⟩ := c
    rcases List.mem_cons.mp h with rfl | h
    · simp [Memory.read_cons]
    · have : k < e.1 := (List.pairwise_cons.mp hm.1).1 e h
      rw [Memory.read_cons, if_neg (by omega)]
      exact ih (Memory.wf_tail hm) h

/-- Equal memories are equal data: two canonical lists that read alike are the same list. -/
theorem Memory.eq_of_read_eq {m n : Memory} (hm : Memory.wf m) (hn : Memory.wf n)
    (h : ∀ a, Memory.read m a = Memory.read n a) : m = n := by
  induction m generalizing n with
  | nil =>
    cases n with
    | nil => rfl
    | cons c n =>
      have := h c.1
      rw [Memory.read_of_mem hn (by simp : c ∈ c :: n)] at this
      exact absurd this.symm (hn.2 c (by simp))
  | cons c m ih =>
    obtain ⟨k, v⟩ := c
    have hkm : ∀ e ∈ m, k < e.1 := (List.pairwise_cons.mp hm.1).1
    cases n with
    | nil =>
      have := h k
      rw [Memory.read_of_mem hm (by simp : (k, v) ∈ (k, v) :: m)] at this
      exact absurd this (hm.2 (k, v) (by simp))
    | cons d n =>
      obtain ⟨l, w⟩ := d
      have hln : ∀ e ∈ n, l < e.1 := (List.pairwise_cons.mp hn.1).1
      have hk : Memory.read ((l, w) :: n) k = v := by rw [← h k]; simp [Memory.read_cons]
      have hl : Memory.read ((k, v) :: m) l = w := by rw [h l]; simp [Memory.read_cons]
      have hkl : k = l := by
        rcases Nat.lt_trichotomy k l with hlt | heq | hgt
        · have h0 : Memory.read ((l, w) :: n) k = 0 := Memory.read_of_lt (by
            intro e he
            rcases List.mem_cons.mp he with rfl | he
            · exact hlt
            · exact lt_trans hlt (hln e he))
          exact absurd (hk.symm.trans h0) (hm.2 (k, v) (by simp))
        · exact heq
        · have h0 : Memory.read ((k, v) :: m) l = 0 := Memory.read_of_lt (by
            intro e he
            rcases List.mem_cons.mp he with rfl | he
            · exact hgt
            · exact lt_trans hgt (hkm e he))
          exact absurd (hl.symm.trans h0) (hn.2 (l, w) (by simp))
      subst hkl
      have hv : v = w := by rw [← hk]; simp [Memory.read_cons]
      subst hv
      congr 1
      refine ih (Memory.wf_tail hm) (Memory.wf_tail hn) fun a => ?_
      by_cases ha : a = k
      · subst ha; rw [Memory.read_of_lt hkm, Memory.read_of_lt hln]
      · have := h a
        simpa [Memory.read_cons, ha] using this

end Sys2Proof
end

