-- ==== Sys2Proof/Laws/Ops.lean ====
section
/-! SUPPORT. One lemma per shared operation that says everything it can do: the memory port, a push, and a handler
call. -/

namespace Sys2Proof.Machine

/-! ### Reads -/

theorem readByte_ok_iff {s : State} {a : Nat} {b : Byte} :
    s.readByte a = .ok b ↔ a < s.memSize ∧ s.mem.read a = b := by
  unfold State.readByte; split <;> simp [*]

theorem readByte_error_iff {s : State} {a : Nat} {f : CoreFault} :
    s.readByte a = .error f ↔ s.memSize ≤ a ∧ f = .outOfBounds a := by
  unfold State.readByte
  split
  · simp; omega
  · simp only [Except.error.injEq]; constructor
    · rintro rfl; exact ⟨by omega, rfl⟩
    · rintro ⟨_, rfl⟩; rfl

/-- A word read succeeds when both bytes are in memory. -/
theorem readWord_of_lt {s : State} {a : Nat} (h : a + 1 < s.memSize) :
    s.readWord a = .ok (Word.ofBytes (s.mem.read a) (s.mem.read (a + 1))) := by
  have : a < s.memSize := by omega
  simp [State.readWord, State.readByte, h, this]

/-- Everything a word read can answer (20_memory.md R64). -/
theorem readWord_cases (s : State) (a : Nat) :
    (a + 1 < s.memSize ∧ s.readWord a = .ok (Word.ofBytes (s.mem.read a) (s.mem.read (a + 1)))) ∨
    (a + 1 = s.memSize ∧ s.readWord a = .error (.outOfBounds (a + 1))) ∨
    (s.memSize ≤ a ∧ s.readWord a = .error (.outOfBounds a)) := by
  rcases Nat.lt_or_ge a s.memSize with h | h
  · rcases Nat.lt_or_ge (a + 1) s.memSize with h' | h'
    · exact .inl ⟨h', readWord_of_lt h'⟩
    · have hn : ¬ a + 1 < s.memSize := by omega
      exact .inr (.inl ⟨by omega, by simp [State.readWord, State.readByte, h, hn]⟩)
  · have hn : ¬ a < s.memSize := by omega
    exact .inr (.inr ⟨h, by simp [State.readWord, State.readByte, hn]⟩)

/-! ### Writes -/

/-- Everything a byte write can answer (20_memory.md R62). -/
theorem writeByte_cases (s : State) (a : Nat) (b : Byte) :
    (a < s.memSize ∧ s.writeByte a b = .ok { s with mem := s.mem.write a b }) ∨
    (s.memSize ≤ a ∧ s.writeByte a b = .error (.outOfBounds a)) := by
  rcases Nat.lt_or_ge a s.memSize with h | h
  · exact .inl ⟨h, by simp [State.writeByte, h]⟩
  · have hn : ¬ a < s.memSize := by omega
    exact .inr ⟨h, by simp [State.writeByte, hn]⟩

/-- The state after a word write that succeeds. -/
def storedWord (s : State) (a : Nat) (v : Word) : State :=
  { s with mem := (s.mem.write a (Word.lo v)).write (a + 1) (Word.hi v) }

/-- Everything a word write can answer (20_memory.md R65). -/
theorem writeWord_cases (s : State) (a : Nat) (v : Word) :
    (a + 1 < s.memSize ∧ s.writeWord a v = .ok (storedWord s a v)) ∨
    (a + 1 = s.memSize ∧ s.writeWord a v = .error (.outOfBounds (a + 1))) ∨
    (s.memSize ≤ a ∧ s.writeWord a v = .error (.outOfBounds a)) := by
  rcases Nat.lt_or_ge a s.memSize with h | h
  · rcases Nat.lt_or_ge (a + 1) s.memSize with h' | h'
    · exact .inl ⟨h', by simp [State.writeWord, storedWord, h, h']⟩
    · have hn : ¬ a + 1 < s.memSize := by omega
      exact .inr (.inl ⟨by omega, by simp [State.writeWord, h, hn]⟩)
  · have hn : ¬ a < s.memSize := by omega
    exact .inr (.inr ⟨h, by simp [State.writeWord, hn]⟩)

section StoredWord
variable (s : State) (a : Nat) (v : Word)

@[simp] theorem storedWord_reg (r : Reg) : (storedWord s a v).reg r = s.reg r := rfl
@[simp] theorem storedWord_halted : (storedWord s a v).halted = s.halted := rfl
@[simp] theorem storedWord_fault : (storedWord s a v).fault = s.fault := rfl
@[simp] theorem storedWord_trace : (storedWord s a v).trace = s.trace := rfl
@[simp] theorem storedWord_cfg : (storedWord s a v).cfg = s.cfg := rfl
@[simp] theorem storedWord_hostDraws : (storedWord s a v).hostDraws = s.hostDraws := rfl
@[simp] theorem storedWord_memSize : (storedWord s a v).memSize = s.memSize := rfl

/-- The bytes of memory after a word write. -/
theorem storedWord_read (h : s.mem.wf) (x : Nat) :
    (storedWord s a v).mem.read x =
      if x = a + 1 then Word.hi v else if x = a then Word.lo v else s.mem.read x := by
  show Memory.read ((s.mem.write a (Word.lo v)).write (a + 1) (Word.hi v)) x = _
  rw [Memory.read_write (Memory.wf_write h _ _), Memory.read_write h]

end StoredWord

/-- Everything a push can answer (43_stack.md R190 and R192). -/
theorem pushWord_cases (s : State) (v : Word) :
    (s.pushAddr + 1 < s.memSize ∧
      s.pushWord v = .ok ((storedWord s s.pushAddr v).setReg .sp (u16 (s.pushAddr + 2)))) ∨
    (s.pushAddr + 1 = s.memSize ∧ s.pushWord v = .error (.outOfBounds (s.pushAddr + 1))) ∨
    (s.memSize ≤ s.pushAddr ∧ s.pushWord v = .error (.outOfBounds s.pushAddr)) := by
  rcases writeWord_cases s s.pushAddr v with ⟨h, e⟩ | ⟨h, e⟩ | ⟨h, e⟩
  · exact .inl ⟨h, by simp [State.pushWord, e]⟩
  · exact .inr (.inl ⟨h, by simp [State.pushWord, e]⟩)
  · exact .inr (.inr ⟨h, by simp [State.pushWord, e]⟩)

/-! ### The memory part of the invariant -/

/-- Memory is canonical and lists nothing at or above MEM_SIZE. -/
def MemOk (s : State) : Prop := s.mem.wf ∧ ∀ e ∈ s.mem, e.1 < s.memSize

theorem MemOk.write {s : State} (h : MemOk s) {a : Nat} (ha : a < s.memSize) (b : Byte) :
    MemOk { s with mem := s.mem.write a b } :=
  ⟨Memory.wf_write h.1 _ _, fun e he => by
    rcases Memory.mem_write he with rfl | he
    · exact ha
    · exact h.2 e he⟩

theorem MemOk.storedWord {s : State} (h : MemOk s) {a : Nat} (ha : a + 1 < s.memSize) (v : Word) :
    MemOk (storedWord s a v) :=
  (h.write (by omega : a < s.memSize) (Word.lo v)).write (s := { s with mem := s.mem.write a (Word.lo v) })
    ha (Word.hi v)

theorem MemOk.setReg {s : State} (h : MemOk s) (r : Reg) (v : Word) : MemOk (s.setReg r v) := h

theorem MemOk.raise {s : State} (h : MemOk s) (f : CoreFault) : MemOk (s.raise f) := h

/-! ### Handlers -/

section CountDraw
variable (s : State)

@[simp] theorem countDraw_reg (r : Reg) : s.countDraw.reg r = s.reg r := rfl
@[simp] theorem countDraw_mem : s.countDraw.mem = s.mem := rfl
@[simp] theorem countDraw_halted : s.countDraw.halted = s.halted := rfl
@[simp] theorem countDraw_fault : s.countDraw.fault = s.fault := rfl
@[simp] theorem countDraw_trace : s.countDraw.trace = s.trace := rfl
@[simp] theorem countDraw_cfg : s.countDraw.cfg = s.cfg := rfl
@[simp] theorem countDraw_hostDraws : s.countDraw.hostDraws = s.hostDraws + 1 := rfl
@[simp] theorem countDraw_memSize : s.countDraw.memSize = s.memSize := rfl
@[simp] theorem countDraw_readByte (a : Nat) : s.countDraw.readByte a = s.readByte a := rfl

end CountDraw

/-- A handler's value fails only on a read outside memory. -/
theorem hostVal_error {s : State} {v : HostVal} {f : CoreFault} (h : s.hostVal v = .error f) :
    ∃ a, s.memSize ≤ a ∧ f = .outOfBounds a := by
  induction v with
  | lit n => simp [State.hostVal] at h
  | reg r => simp [State.hostVal] at h
  | byte addr ih =>
    simp only [State.hostVal] at h
    split at h
    · rename_i g hg; cases h; exact ih hg
    · rename_i a _
      split at h
      · rename_i g hg; cases h; exact ⟨a, readByte_error_iff.mp hg⟩
      · cases h
  | add x y ihx ihy | mul x y ihx ihy =>
    simp only [State.hostVal] at h
    split at h
    · rename_i g hg; cases h; exact ihx hg
    · split at h
      · rename_i g hg; cases h; exact ihy hg
      · cases h

theorem hostCompare_error {s : State} {test : Nat → Nat → Bool} {x y : HostVal} {f : CoreFault}
    (h : s.hostCompare test x y = .error f) : ∃ a, s.memSize ≤ a ∧ f = .outOfBounds a := by
  unfold State.hostCompare at h
  split at h
  · rename_i g hg; cases h; exact hostVal_error hg
  · split at h
    · rename_i g hg; cases h; exact hostVal_error hg
    · cases h

/-- What a handler asks fails only on a read outside memory. -/
theorem hostCond_error {s : State} {b : HostCond} {f : CoreFault} (h : s.hostCond b = .error f) :
    ∃ a, s.memSize ≤ a ∧ f = .outOfBounds a := by
  induction b with
  | halted => simp [State.hostCond] at h
  | eq x y => exact hostCompare_error h
  | lt x y => exact hostCompare_error h
  | not x ih =>
    simp only [State.hostCond] at h
    split at h
    · rename_i g hg; cases h; exact ih hg
    · cases h
  | and x y ihx ihy =>
    simp only [State.hostCond] at h
    split at h
    · rename_i g hg; cases h; exact ihx hg
    · cases h
    · exact ihy h

/-- A byte write, with what is left of the call's number: all it can answer. -/
theorem writeByte_map_cases (s : State) (a : Nat) (b : Byte) (c : Nat) :
    (a < s.memSize ∧ (s.writeByte a b).map (fun t => (t, c)) = .ok ({ s with mem := s.mem.write a b }, c)) ∨
    (s.memSize ≤ a ∧ (s.writeByte a b).map (fun t => (t, c)) = .error (.outOfBounds a)) := by
  rcases writeByte_cases s a b with ⟨h, e⟩ | ⟨h, e⟩
  · exact .inl ⟨h, by rw [e]; rfl⟩
  · exact .inr ⟨h, by rw [e]; rfl⟩

/-- Everything one action of a handler can do. -/
theorem hostAct_ok {s t : State} {c d : Nat} {x : HandlerAct} (h : s.hostAct c x = .ok (t, d)) :
    (∃ r v, t = s.setReg r v) ∨
    (∃ a b, a < s.memSize ∧ t = { s with mem := s.mem.write a b }) ∨
    (∃ b, t = { s with halted := b }) := by
  cases x with
  | setReg r v =>
    simp only [State.hostAct] at h
    split at h
    · cases h
    · cases h; exact .inl ⟨_, _, rfl⟩
  | writeByte addr v =>
    simp only [State.hostAct] at h
    split at h
    · cases h
    · rename_i a _
      split at h
      · cases h
      · rename_i n _
        rcases writeByte_map_cases s a (BitVec.ofNat 8 n) c with ⟨ha, e⟩ | ⟨_, e⟩ <;> rw [e] at h <;> cases h
        exact .inr (.inl ⟨_, _, ha, rfl⟩)
  | setHalted b => cases h; exact .inr (.inr ⟨b, rfl⟩)
  | anyReg r => cases h; exact .inl ⟨_, _, rfl⟩
  | anyByte addr =>
    simp only [State.hostAct] at h
    split at h
    · cases h
    · rename_i a _
      rcases writeByte_map_cases s a (BitVec.ofNat 8 c) (c / 256) with ⟨ha, e⟩ | ⟨_, e⟩ <;> rw [e] at h <;> cases h
      exact .inr (.inl ⟨_, _, ha, rfl⟩)

/-- An action of a handler fails only on an access outside memory (46_signal.md R222 and R223). -/
theorem hostAct_error {s : State} {c : Nat} {x : HandlerAct} {f : CoreFault} (h : s.hostAct c x = .error f) :
    ∃ a, s.memSize ≤ a ∧ f = .outOfBounds a := by
  cases x with
  | setReg r v =>
    simp only [State.hostAct] at h
    split at h
    · rename_i g hg; cases h; exact hostVal_error hg
    · cases h
  | writeByte addr v =>
    simp only [State.hostAct] at h
    split at h
    · rename_i g hg; cases h; exact hostVal_error hg
    · rename_i a _
      split at h
      · rename_i g hg; cases h; exact hostVal_error hg
      · rename_i n _
        rcases writeByte_map_cases s a (BitVec.ofNat 8 n) c with ⟨_, e⟩ | ⟨ha, e⟩ <;> rw [e] at h <;> cases h
        exact ⟨a, ha, rfl⟩
  | setHalted b => simp [State.hostAct] at h
  | anyReg r => simp [State.hostAct] at h
  | anyByte addr =>
    simp only [State.hostAct] at h
    split at h
    · rename_i g hg; cases h; exact hostVal_error hg
    · rename_i a _
      rcases writeByte_map_cases s a (BitVec.ofNat 8 c) (c / 256) with ⟨_, e⟩ | ⟨ha, e⟩ <;> rw [e] at h <;> cases h
      exact ⟨a, ha, rfl⟩

/-- A property that the actions of handlers keep holds at the end of a course; where it failed, the fault is
OutOfBounds of an address outside the memory of that end. -/
theorem runHandler_keeps {P : State → Prop}
    (hreg : ∀ s r v, P s → P (s.setReg r v))
    (hmem : ∀ s a b, a < s.memSize → P s → P { s with mem := s.mem.write a b })
    (hhalt : ∀ s b, P s → P { s with halted := b })
    (p : HandlerProg) (s : State) (c : Nat) (h : P s) :
    (∃ t d, s.runHandler c p = .done t d ∧ P t) ∨
    (∃ t a, s.runHandler c p = .failed t (.outOfBounds a) ∧ P t ∧ t.memSize ≤ a) := by
  induction p generalizing s c with
  | done => exact .inl ⟨s, c, rfl, h⟩
  | act x p ih =>
    simp only [State.runHandler]
    split
    · rename_i f hf
      obtain ⟨a, ha, rfl⟩ := hostAct_error hf
      exact .inr ⟨s, a, rfl, h, ha⟩
    · rename_i t d ht
      refine ih t d ?_
      rcases hostAct_ok ht with ⟨r, v, rfl⟩ | ⟨a, b, ha, rfl⟩ | ⟨b, rfl⟩
      · exact hreg _ _ _ h
      · exact hmem _ _ _ ha h
      · exact hhalt _ _ h
  | ite b p q ihp ihq =>
    simp only [State.runHandler]
    split
    · rename_i f hf
      obtain ⟨a, ha, rfl⟩ := hostCond_error hf
      exact .inr ⟨s, a, rfl, h, ha⟩
    · exact ihp s c h
    · exact ihq s c h
  | choose p q ihp ihq =>
    simp only [State.runHandler]
    split
    · exact ihp s _ h
    · exact ihq s _ h

/-- A property that the actions of handlers keep, and that counting the call and latching a fault keep, holds after a
handler call. -/
theorem callHandler_keeps {P : State → Prop}
    (hreg : ∀ s r v, P s → P (s.setReg r v))
    (hmem : ∀ s a b, a < s.memSize → P s → P { s with mem := s.mem.write a b })
    (hhalt : ∀ s b, P s → P { s with halted := b })
    (hcount : ∀ s, P s → P s.countDraw) (hraise : ∀ s f, P s → P (s.raise f))
    (s : State) (id : Byte) (hd : Handler) (h : P s) : P (s.callHandler id hd) := by
  unfold State.callHandler State.runAsHandler
  rcases runHandler_keeps hreg hmem hhalt (s.handlerProg id hd) s.countDraw (s.handlerChoice id) (hcount s h) with
    ⟨t, d, e, ht⟩ | ⟨t, a, e, ht, _⟩ <;> rw [e]
  · exact ht
  · exact hraise _ _ ht

theorem callHandler_cfg (s : State) (id : Byte) (h : Handler) : (s.callHandler id h).cfg = s.cfg :=
  callHandler_keeps (P := fun t => t.cfg = s.cfg) (fun _ _ _ h => h) (fun _ _ _ _ h => h) (fun _ _ h => h)
    (fun _ h => h) (fun _ _ h => h) s id h rfl

theorem callHandler_trace (s : State) (id : Byte) (h : Handler) : (s.callHandler id h).trace = s.trace :=
  callHandler_keeps (P := fun t => t.trace = s.trace) (fun _ _ _ h => h) (fun _ _ _ _ h => h) (fun _ _ h => h)
    (fun _ h => h) (fun _ _ h => h) s id h rfl

theorem callHandler_memOk (s : State) (id : Byte) (h : Handler) (hs : MemOk s) : MemOk (s.callHandler id h) :=
  callHandler_keeps (P := MemOk) (fun _ r v h => h.setReg r v) (fun _ _ b ha h => h.write ha b) (fun _ _ h => h)
    (fun _ h => h) (fun _ f h => h.raise f) s id h hs

/-- A handler that latches a fault latches OutOfBounds of an address outside memory. -/
theorem callHandler_fault {s : State} {id : Byte} {h : Handler} {f : CoreFault} (hs : s.fault = none)
    (hf : (s.callHandler id h).fault = some f) : ∃ a, s.memSize ≤ a ∧ f = .outOfBounds a := by
  unfold State.callHandler State.runAsHandler at hf
  rcases runHandler_keeps (P := fun t => t.fault = none ∧ t.memSize = s.memSize) (fun _ _ _ h => h)
    (fun _ _ _ _ h => h) (fun _ _ h => h) (s.handlerProg id h) s.countDraw (s.handlerChoice id) ⟨hs, rfl⟩ with
    ⟨t, d, e, ht⟩ | ⟨t, a, e, ht, ha⟩ <;> rw [e] at hf
  · simp [HandlerEnd.state, ht.1] at hf
  · cases hf; exact ⟨a, ht.2 ▸ ha, rfl⟩

/-- A course and then another: the second starts where the first ran to completion. -/
theorem runHandler_andThen (p q : HandlerProg) (s : State) (c : Nat) :
    s.runHandler c (p.andThen q) =
      match s.runHandler c p with
      | .done t d => t.runHandler d q
      | .failed t f => .failed t f := by
  induction p generalizing s c with
  | done => rfl
  | act x p ih =>
    simp only [HandlerProg.andThen, State.runHandler]
    split
    · rfl
    · exact ih _ _
  | ite b p q ihp ihq =>
    simp only [HandlerProg.andThen, State.runHandler]
    split
    · rfl
    · exact ihp _ _
    · exact ihq _ _
  | choose p q ihp ihq =>
    simp only [HandlerProg.andThen, State.runHandler]
    split
    · exact ihp _ _
    · exact ihq _ _

/-! ### The sequencer's condition and the host's load -/

theorem condition_running_iff {s : State} : s.condition = .running ↔ s.fault = none ∧ s.halted = false := by
  unfold State.condition
  split
  · simp [*]
  · rename_i h; cases hh : s.halted <;> simp [h]

theorem condition_halted_iff {s : State} : s.condition = .halted ↔ s.fault = none ∧ s.halted = true := by
  unfold State.condition
  split
  · simp [*]
  · rename_i h; cases hh : s.halted <;> simp [h]

theorem condition_faulted_iff {s : State} : s.condition = .faulted ↔ ∃ f, s.fault = some f := by
  unfold State.condition
  split
  · simp [*]
  · rename_i h; cases hh : s.halted <;> simp [h]

theorem wf_storeBytes {m : Memory} (h : Memory.wf m) (a : Nat) (bs : List Byte) : Memory.wf (storeBytes m a bs) := by
  induction bs generalizing m a with
  | nil => exact h
  | cons b bs ih => exact ih (Memory.wf_write h a b) (a + 1)

/-- The bytes of memory after a bulk load (70_reset_and_hazards.md R261). -/
theorem read_storeBytes {m : Memory} (h : Memory.wf m) (a : Nat) (bs : List Byte) (x : Nat) :
    Memory.read (storeBytes m a bs) x =
      if a ≤ x then (match bs[x - a]? with | some b => b | none => Memory.read m x) else Memory.read m x := by
  induction bs generalizing m a with
  | nil => simp [storeBytes]
  | cons b bs ih =>
    simp only [storeBytes]
    rw [ih (Memory.wf_write h a b), Memory.read_write h]
    rcases Nat.lt_trichotomy x a with hx | hx | hx
    · have h1 : ¬ a + 1 ≤ x := by omega
      have h2 : ¬ a ≤ x := by omega
      have h3 : x ≠ a := by omega
      simp [h1, h2, h3]
    · subst hx; simp
    · have h1 : a + 1 ≤ x := hx
      have h2 : a ≤ x := by omega
      have h3 : x ≠ a := by omega
      have e : x - a = (x - (a + 1)) + 1 := by omega
      simp [h1, h2, h3, e]

end Sys2Proof.Machine
end

