-- ==== Sys2Proof/Laws/Handler.lean ====
section
/-! SUPPORT. Every relation that 46_signal.md R223 allows for an id is a handler: for every relation on what a handler
sees (registers, `halted`, memory) that relates every such view to some view, there is a course that can end in every
related view and in no other. -/

namespace Sys2Proof.Machine

/-- What a handler sees: registers, `halted`, memory (46_signal.md R222). -/
abbrev HostView := RegFile × Bool × Memory

def State.view (s : State) : HostView := (s.regs, s.halted, s.mem)

/-- A view of a machine with `n` bytes of memory. -/
def LegalView (n : Nat) (v : HostView) : Prop := Memory.wf v.2.2 ∧ ∀ e ∈ v.2.2, e.1 < n

/-- What identifies a view: its registers, `halted`, and its bytes below `n`. -/
theorem legalView_ext {n : Nat} {v w : HostView} (hv : LegalView n v) (hw : LegalView n w)
    (hr : ∀ r, v.1.get r = w.1.get r) (hh : v.2.1 = w.2.1) (hm : ∀ a, a < n → Memory.read v.2.2 a = Memory.read w.2.2 a) :
    v = w := by
  have beyond : ∀ {u : HostView}, LegalView n u → ∀ a, ¬ a < n → Memory.read u.2.2 a = 0 := by
    intro u hu a ha
    by_contra h
    exact ha (hu.2 _ (Memory.mem_of_read_ne h))
  refine Prod.ext (PerReg.ext_get hr) (Prod.ext hh (Memory.eq_of_read_eq hv.1 hw.1 fun a => ?_))
  by_cases ha : a < n
  · exact hm a ha
  · rw [beyond hv a ha, beyond hw a ha]

/-- A machine has finitely many views. -/
theorem finite_legalView (n : Nat) : {v : HostView | LegalView n v}.Finite := by
  have fin : ∀ k, Finite (BitVec k) := fun k =>
    Finite.of_injective BitVec.toFin fun x y h => BitVec.eq_of_toNat_eq (congrArg Fin.val h)
  have := fin 16
  have := fin 8
  let key : HostView → (Fin 8 → Word) × Bool × (Fin n → Byte) := fun v =>
    (fun k => v.1.get (Reg.all.get k), v.2.1, fun a => Memory.read v.2.2 a)
  refine Set.Finite.of_finite_image (f := key) (Set.toFinite _) fun v hv w hw h => ?_
  simp only [key, Prod.mk.injEq] at h
  refine legalView_ext hv hw (fun r => ?_) h.2.1 fun a ha => congrFun h.2.2 ⟨a, ha⟩
  obtain ⟨k, rfl⟩ := List.mem_iff_get.mp (Reg.mem_all r)
  exact congrFun h.1 k

/-! ### Asking whether the state has a given view -/

/-- All of some questions. -/
def andAll (l : List HostCond) : HostCond := l.foldr HostCond.and (.eq (.lit 0) (.lit 0))

theorem hostCond_andAll {α : Type} {s : State} {l : List α} {f : α → HostCond} {P : α → Bool}
    (h : ∀ x ∈ l, s.hostCond (f x) = .ok (P x)) : s.hostCond (andAll (l.map f)) = .ok (l.all P) := by
  induction l with
  | nil => rfl
  | cons x l ih =>
    have ih := ih fun y hy => h y (List.mem_cons_of_mem _ hy)
    simp only [andAll, List.map_cons, List.foldr_cons, State.hostCond, h x (List.mem_cons_self ..)] at ih ⊢
    cases hb : P x
    · simp [hb]
    · simpa [hb] using ih

def askReg (v : HostView) (r : Reg) : HostCond := .eq (.reg r) (.lit (v.1.get r).toNat)

def askHalted (v : HostView) : HostCond := if v.2.1 then .halted else .not .halted

def askByte (v : HostView) (a : Nat) : HostCond := .eq (.byte (.lit a)) (.lit (Memory.read v.2.2 a).toNat)

/-- The question whether the state has the view `v`. -/
def isView (n : Nat) (v : HostView) : HostCond :=
  .and (andAll (Reg.all.map (askReg v))) (.and (askHalted v) (andAll ((List.range n).map (askByte v))))

theorem hostCond_askReg (s : State) (v : HostView) (r : Reg) :
    s.hostCond (askReg v r) = .ok (decide (s.reg r = v.1.get r)) := by
  simp [askReg, State.hostCond, State.hostCompare, State.hostVal, BitVec.toNat_eq]

theorem hostCond_askHalted (s : State) (v : HostView) :
    s.hostCond (askHalted v) = .ok (decide (s.halted = v.2.1)) := by
  unfold askHalted
  cases hv : v.2.1 <;> cases hs : s.halted <;> simp [State.hostCond, hs]

theorem hostCond_askByte {s : State} {a : Nat} (ha : a < s.memSize) (v : HostView) :
    s.hostCond (askByte v a) = .ok (decide (s.mem.read a = Memory.read v.2.2 a)) := by
  simp [askByte, State.hostCond, State.hostCompare, State.hostVal, State.readByte, ha, BitVec.toNat_eq]

/-- A conjunction of two questions that have answers. -/
theorem hostCond_and {s : State} {x y : HostCond} {a b : Bool} (hx : s.hostCond x = .ok a) (hy : s.hostCond y = .ok b) :
    s.hostCond (.and x y) = .ok (a && b) := by
  cases a <;> simp [State.hostCond, hx, hy]

theorem hostCond_isView {s : State} {n : Nat} {v : HostView} (hn : s.memSize = n) (hs : LegalView n s.view)
    (hv : LegalView n v) : s.hostCond (isView n v) = .ok (decide (s.view = v)) := by
  unfold isView
  rw [hostCond_and (hostCond_andAll fun r _ => hostCond_askReg s v r)
    (hostCond_and (hostCond_askHalted s v)
      (hostCond_andAll fun a ha => hostCond_askByte (by rw [hn]; exact List.mem_range.mp ha) v))]
  congr 1
  rw [Bool.eq_iff_iff]
  simp only [Bool.and_eq_true, List.all_eq_true, decide_eq_true_eq, List.mem_range]
  constructor
  · rintro ⟨hr, hh, hm⟩
    exact legalView_ext hs hv (fun r => hr r (Reg.mem_all r)) hh hm
  · rintro rfl
    exact ⟨fun _ _ => rfl, rfl, fun _ _ => rfl⟩

/-! ### Leaving a given view -/

theorem ofActs_append (xs ys : List HandlerAct) :
    HandlerProg.ofActs (xs ++ ys) = (HandlerProg.ofActs xs).andThen (.ofActs ys) := by
  induction xs with
  | nil => rfl
  | cons x xs ih => exact congrArg (HandlerProg.act x) ih

def putReg (w : HostView) (r : Reg) : HandlerAct := .setReg r (.lit (w.1.get r).toNat)

def putByte (w : HostView) (a : Nat) : HandlerAct := .writeByte (.lit a) (.lit (Memory.read w.2.2 a).toNat)

/-- The course that leaves the view `w`. -/
def becomeView (n : Nat) (w : HostView) : HandlerProg :=
  .ofActs (Reg.all.map (putReg w) ++ (.setHalted w.2.1 :: (List.range n).map (putByte w)))

theorem runHandler_putRegs (w : HostView) (l : List Reg) (s : State) (c : Nat) :
    ∃ g : RegFile, s.runHandler c (.ofActs (l.map (putReg w))) = .done { s with regs := g } c ∧
      ∀ r, g.get r = if r ∈ l then w.1.get r else s.regs.get r := by
  induction l generalizing s with
  | nil => exact ⟨s.regs, rfl, by simp⟩
  | cons r l ih =>
    obtain ⟨g, e, hg⟩ := ih (s.setReg r (w.1.get r))
    refine ⟨g, ?_, fun q => ?_⟩
    · have hv : u16 (w.1.get r).toNat = w.1.get r := by simp [u16]
      simp only [List.map_cons, HandlerProg.ofActs, List.foldr_cons, putReg, State.runHandler, State.hostAct,
        State.hostVal, hv]
      exact e
    · rw [hg q]
      by_cases hq : q ∈ l <;> by_cases hqr : q = r <;> simp [hq, hqr, State.setReg, PerReg.get_set]

theorem runHandler_putBytes (w : HostView) (l : List Nat) (s : State) (c : Nat) (hl : ∀ a ∈ l, a < s.memSize)
    (hs : Memory.wf s.mem) :
    ∃ m, s.runHandler c (.ofActs (l.map (putByte w))) = .done { s with mem := m } c ∧
      ∀ x, Memory.read m x = if x ∈ l then Memory.read w.2.2 x else s.mem.read x := by
  induction l generalizing s with
  | nil => exact ⟨s.mem, rfl, by simp⟩
  | cons a l ih =>
    have ha : a < s.memSize := hl a (List.mem_cons_self ..)
    obtain ⟨m, e, hm⟩ := ih { s with mem := s.mem.write a (Memory.read w.2.2 a) }
      (fun x hx => hl x (List.mem_cons_of_mem _ hx)) (Memory.wf_write hs _ _)
    refine ⟨m, ?_, fun x => ?_⟩
    · rw [← e]
      simp [HandlerProg.ofActs, putByte, State.runHandler, State.hostAct, State.hostVal, State.writeByte, ha,
        Except.map]
    · rw [hm x, Memory.read_write hs]
      by_cases hx : x ∈ l <;> by_cases hxa : x = a <;> simp [hx, hxa]

theorem runHandler_becomeView {s : State} {n : Nat} {w : HostView} (hn : s.memSize = n) (hs : LegalView n s.view)
    (hw : LegalView n w) (c : Nat) : ∃ t, s.runHandler c (becomeView n w) = .done t c ∧ t.view = w := by
  obtain ⟨m, e, hm⟩ := runHandler_putBytes w (List.range n) { s with regs := w.1, halted := w.2.1 } c
    (fun a ha => by rw [← hn] at ha; exact List.mem_range.mp ha) hs.1
  have hrun : s.runHandler c (becomeView n w) = .done { s with regs := w.1, halted := w.2.1, mem := m } c := by
    obtain ⟨g, eg, hg⟩ := runHandler_putRegs w Reg.all s c
    obtain rfl : g = w.1 := PerReg.ext_get fun r => by rw [hg r, if_pos (Reg.mem_all r)]
    unfold becomeView
    rw [ofActs_append, runHandler_andThen, eg]
    exact e
  have hok : MemOk { s with regs := w.1, halted := w.2.1, mem := m } := by
    rcases runHandler_keeps (P := MemOk) (fun _ r v h => h.setReg r v) (fun _ _ b ha h => h.write ha b) (fun _ _ h => h)
      (becomeView n w) s c ⟨hs.1, fun e he => by rw [hn]; exact hs.2 e he⟩ with ⟨t, d, h, ht⟩ | ⟨t, a, h, _⟩
    · rw [hrun] at h; cases h; exact ht
    · rw [hrun] at h; cases h
  refine ⟨_, hrun, legalView_ext (n := n) ⟨hok.1, fun e he => hn ▸ hok.2 e he⟩ hw (fun _ => rfl) rfl fun a ha => ?_⟩
  show Memory.read m a = _
  rw [hm a, if_pos (List.mem_range.mpr ha)]

/-! ### Choosing -/

/-- One of the courses of a list, nothing saying which. -/
def chooseAll : List HandlerProg → HandlerProg
  | [] => .done
  | [p] => p
  | p :: q :: ps => .choose p (chooseAll (q :: ps))

/-- What a choice does, one of its courses does. -/
theorem runHandler_chooseAll_some (s : State) (l : List HandlerProg) (hl : l ≠ []) (c : Nat) :
    ∃ p ∈ l, ∃ d, s.runHandler c (chooseAll l) = s.runHandler d p := by
  induction l generalizing c with
  | nil => exact absurd rfl hl
  | cons p l ih =>
    cases l with
    | nil => exact ⟨p, List.mem_cons_self .., c, rfl⟩
    | cons q ps =>
      simp only [chooseAll, State.runHandler]
      split
      · exact ⟨p, List.mem_cons_self .., _, rfl⟩
      · obtain ⟨x, hx, d, e⟩ := ih (by simp) (c / 2)
        exact ⟨x, List.mem_cons_of_mem _ hx, d, e⟩

/-- Each of its courses, a choice may take. -/
theorem runHandler_chooseAll_each (s : State) (l : List HandlerProg) (p : HandlerProg) (hp : p ∈ l) (d : Nat) :
    ∃ c, s.runHandler c (chooseAll l) = s.runHandler d p := by
  induction l with
  | nil => cases hp
  | cons q l ih =>
    cases l with
    | nil => rw [List.mem_singleton] at hp; subst hp; exact ⟨d, rfl⟩
    | cons r ps =>
      rcases List.mem_cons.mp hp with rfl | hp
      · exact ⟨2 * d, by simp [chooseAll, State.runHandler]⟩
      · obtain ⟨c, e⟩ := ih hp
        refine ⟨2 * c + 1, ?_⟩
        rw [← e]
        have h2 : (2 * c + 1) / 2 = c := by omega
        simp [chooseAll, State.runHandler, h2]

/-! ### Every relation -/

/-- The course that, from each of the listed views, ends in one of the views listed for it. -/
def tableProg (n : Nat) (rows : List (HostView × List HostView)) : HandlerProg :=
  rows.foldr (fun row rest => .ite (isView n row.1) (chooseAll (row.2.map (becomeView n))) rest) .done

theorem runHandler_tableProg {s : State} {n : Nat} (hn : s.memSize = n) (hs : LegalView n s.view)
    (out : HostView → List HostView) (views : List HostView) (hv : ∀ v ∈ views, LegalView n v) (h : s.view ∈ views)
    (c : Nat) :
    s.runHandler c (tableProg n (views.map fun v => (v, out v))) =
      s.runHandler c (chooseAll ((out s.view).map (becomeView n))) := by
  induction views with
  | nil => cases h
  | cons v vs ih =>
    simp only [tableProg, List.map_cons, List.foldr_cons, State.runHandler,
      hostCond_isView hn hs (hv v (List.mem_cons_self ..))]
    by_cases e : s.view = v
    · subst e; simp
    · simp only [e, decide_false]
      exact ih (fun x hx => hv x (List.mem_cons_of_mem _ hx)) ((List.mem_cons.mp h).resolve_left e)

/-- 46_signal.md R223: for every relation on what a handler sees, on a machine with `n` bytes, that relates every
legal view to some legal view, there is a course that, run from a state with any view, ends without a fault in a
related view whatever its number, and in each related view for some number. -/
theorem handlerProg_reaches_every_relation (n : Nat) (R : HostView → HostView → Prop)
    (hR : ∀ v, LegalView n v → ∃ w, LegalView n w ∧ R v w) :
    ∃ p : HandlerProg, ∀ s : State, s.memSize = n → LegalView n s.view →
      (∀ c, ∃ t d, s.runHandler c p = .done t d ∧ R s.view t.view) ∧
      (∀ w, LegalView n w → R s.view w → ∃ c t d, s.runHandler c p = .done t d ∧ t.view = w) := by
  classical
  let views : List HostView := (finite_legalView n).toFinset.toList
  have mem_views : ∀ v, v ∈ views ↔ LegalView n v := fun v => by simp [views]
  let out : HostView → List HostView := fun v => views.filter fun w => decide (R v w)
  refine ⟨tableProg n (views.map fun v => (v, out v)), fun s hn hs => ?_⟩
  have hrun := runHandler_tableProg hn hs out views (fun v hv => (mem_views v).mp hv) ((mem_views _).mpr hs)
  have hout : ∀ w, w ∈ out s.view ↔ LegalView n w ∧ R s.view w := fun w => by simp [out, mem_views]
  refine ⟨fun c => ?_, fun w hw hRw => ?_⟩
  · obtain ⟨w0, hw0⟩ := hR _ hs
    have hne : (out s.view).map (becomeView n) ≠ [] :=
      List.ne_nil_of_mem (List.mem_map_of_mem ((hout w0).mpr hw0))
    obtain ⟨p, hp, d, e⟩ := runHandler_chooseAll_some s _ hne c
    obtain ⟨w, hw, rfl⟩ := List.mem_map.mp hp
    obtain ⟨t, ht, rfl⟩ := runHandler_becomeView hn hs ((hout _).mp hw).1 d
    exact ⟨t, d, by rw [hrun, e, ht], ((hout _).mp hw).2⟩
  · obtain ⟨c, e⟩ := runHandler_chooseAll_each s _ _ (List.mem_map_of_mem ((hout w).mpr ⟨hw, hRw⟩)) 0
    obtain ⟨t, ht, hv⟩ := runHandler_becomeView hn hs hw 0
    exact ⟨c, t, 0, by rw [hrun, e, ht], hv⟩

end Sys2Proof.Machine
end

