-- ==== Sys2Proof/Laws/Num.lean ====
section
/-! SUPPORT. The parameter NUM: with no entry it is the default, and its entries reach every function of the operands
(41_arith_logic.md R150). -/

namespace Sys2Proof

@[simp] theorem NumEntry.covers_iff {op : ArithOp} {x y : Word} {e : NumEntry} :
    e.covers op x y = true ↔ e.op = op ∧ e.x = x ∧ e.y = y := by
  simp [NumEntry.covers, and_assoc]

theorem numOf_default {c : Config} (h : c.num = []) (op : ArithOp) (x y : Word) :
    c.numOf op x y = numDefault op x y := by
  simp [Config.numOf, h]

/-- The entries that give a function its value on every word below `n` of both operands. -/
def numTable (f : ArithOp → Word → Word → Word × Bool) (n : Nat) : List NumEntry :=
  [ArithOp.add, .sub, .mul, .div, .shl, .shr, .and, .or, .xor, .not].flatMap fun op =>
    (List.range n).flatMap fun x => (List.range n).map fun y =>
      let v := f op (BitVec.ofNat 16 x) (BitVec.ofNat 16 y)
      ⟨op, BitVec.ofNat 16 x, BitVec.ofNat 16 y, v.1, v.2⟩

theorem numTable_sound {f : ArithOp → Word → Word → Word × Bool} {n : Nat} {e : NumEntry} (h : e ∈ numTable f n) :
    (e.r, e.ov) = f e.op e.x e.y := by
  simp only [numTable, List.mem_flatMap, List.mem_map] at h
  obtain ⟨op, _, x, _, y, _, rfl⟩ := h
  rfl

theorem numTable_complete (f : ArithOp → Word → Word → Word × Bool) {n : Nat} (op : ArithOp) {x y : Word}
    (hx : x.toNat < n) (hy : y.toNat < n) : ∃ e ∈ numTable f n, e.op = op ∧ e.x = x ∧ e.y = y := by
  refine ⟨⟨op, x, y, (f op x y).1, (f op x y).2⟩, ?_, rfl, rfl, rfl⟩
  simp only [numTable, List.mem_flatMap, List.mem_map, List.mem_range]
  exact ⟨op, by cases op <;> simp, x.toNat, hx, y.toNat, hy, by simp⟩

/-- Every function of the operands is a choice of NUM. -/
theorem numOf_reaches_every_function (c : Config) (f : ArithOp → Word → Word → Word × Bool) :
    ∃ num, ∀ op x y, ({ c with num := num } : Config).numOf op x y = f op x y := by
  obtain ⟨n, hn⟩ : ∃ n, n = 65536 := ⟨_, rfl⟩
  refine ⟨numTable f n, fun op x y => ?_⟩
  obtain ⟨e, he, hc⟩ := numTable_complete f (n := n) op (x := x) (y := y) (by omega) (by omega)
  unfold Config.numOf
  split
  · rename_i d hd
    obtain ⟨rfl, rfl, rfl⟩ := NumEntry.covers_iff.mp (List.find?_some hd)
    exact numTable_sound (List.mem_of_find?_eq_some hd)
  · rename_i hd
    exact absurd (NumEntry.covers_iff.mpr hc) (List.find?_eq_none.mp hd e he)

end Sys2Proof
end

