-- ==== Sys2Proof/Laws/PerInstr.lean ====
section
/-! SUPPORT. The per-instruction family `EncodedOpcode`: the opcode byte of an encoded instruction is its mnemonic's,
its operands have the shape of the opcode table, and the encoder writes the unused bits 0 (30_encoding.md R92, R94
and R100). -/

namespace Sys2Proof.Laws

/-- What the encoder writes for one instruction, under every choice of the maps. -/
def EncodedOpcode.Statement (i : Instr) : Prop :=
  ∀ e : Encoding, Word.lo (encode e i) = e.opc.get i.mnemonic ∧
    encode e i &&& i.mnemonic.shape.unusedBits = 0

/-- A word whose high nibble is written 0 has nothing in bits 15:12. -/
theorem ofBytes_reg_unused (lo : Byte) (x : Nibble) :
    Word.ofBytes lo (Byte.ofNibbles x 0) &&& (0xF000 : Word) = 0 := by
  apply BitVec.eq_of_toNat_eq
  rw [BitVec.toNat_and, ofBytes_toNat, ofNibbles_toNat]
  have h1 := lo.isLt
  have h2 := x.isLt
  have h0 : (0 : Nibble).toNat = 0 := rfl
  have hlt : (0 * 16 + x.toNat) * 256 + lo.toNat < 2 ^ 12 := by omega
  rw [h0]
  show ((0 * 16 + x.toNat) * 256 + lo.toNat) &&& (2 ^ 16 - 2 ^ 12) = 0
  apply Nat.eq_of_testBit_eq
  intro k
  rw [Nat.testBit_and, Nat.zero_testBit]
  by_cases hk : k < 12
  · have : (2 ^ 16 - 2 ^ 12).testBit k = false := by interval_cases k <;> decide
    rw [this, Bool.and_false]
  · have : ((0 * 16 + x.toNat) * 256 + lo.toNat).testBit k = false :=
      Nat.testBit_lt_two_pow (lt_of_lt_of_le hlt (Nat.pow_le_pow_right (by decide) (by omega)))
    rw [this, Bool.false_and]

theorem ofBytes_none_unused (lo : Byte) : Word.ofBytes lo 0 &&& (0xFF00 : Word) = 0 := by
  revert lo; decide

theorem EncodedOpcode.nop : EncodedOpcode.Statement .nop :=
  fun _ => ⟨encode_lo .., ofBytes_none_unused _⟩

theorem EncodedOpcode.push (x : Byte) : EncodedOpcode.Statement (.push x) :=
  fun _ => ⟨encode_lo .., BitVec.and_zero⟩

theorem EncodedOpcode.pop (r : Reg) : EncodedOpcode.Statement (.pop r) :=
  fun _ => ⟨encode_lo .., ofBytes_reg_unused _ _⟩

theorem EncodedOpcode.pushReg (r : Reg) : EncodedOpcode.Statement (.pushReg r) :=
  fun _ => ⟨encode_lo .., ofBytes_reg_unused _ _⟩

theorem EncodedOpcode.mov (x y : Reg) : EncodedOpcode.Statement (.mov x y) :=
  fun _ => ⟨encode_lo .., BitVec.and_zero⟩

theorem EncodedOpcode.add (x y : Reg) : EncodedOpcode.Statement (.add x y) :=
  fun _ => ⟨encode_lo .., BitVec.and_zero⟩

theorem EncodedOpcode.sub (x y : Reg) : EncodedOpcode.Statement (.sub x y) :=
  fun _ => ⟨encode_lo .., BitVec.and_zero⟩

theorem EncodedOpcode.mul (x y : Reg) : EncodedOpcode.Statement (.mul x y) :=
  fun _ => ⟨encode_lo .., BitVec.and_zero⟩

theorem EncodedOpcode.div (x y : Reg) : EncodedOpcode.Statement (.div x y) :=
  fun _ => ⟨encode_lo .., BitVec.and_zero⟩

theorem EncodedOpcode.shl (x y : Reg) : EncodedOpcode.Statement (.shl x y) :=
  fun _ => ⟨encode_lo .., BitVec.and_zero⟩

theorem EncodedOpcode.shr (x y : Reg) : EncodedOpcode.Statement (.shr x y) :=
  fun _ => ⟨encode_lo .., BitVec.and_zero⟩

theorem EncodedOpcode.and (x y : Reg) : EncodedOpcode.Statement (.and x y) :=
  fun _ => ⟨encode_lo .., BitVec.and_zero⟩

theorem EncodedOpcode.or (x y : Reg) : EncodedOpcode.Statement (.or x y) :=
  fun _ => ⟨encode_lo .., BitVec.and_zero⟩

theorem EncodedOpcode.xor (x y : Reg) : EncodedOpcode.Statement (.xor x y) :=
  fun _ => ⟨encode_lo .., BitVec.and_zero⟩

theorem EncodedOpcode.not (r : Reg) : EncodedOpcode.Statement (.not r) :=
  fun _ => ⟨encode_lo .., ofBytes_reg_unused _ _⟩

theorem EncodedOpcode.cmp (x y : Reg) : EncodedOpcode.Statement (.cmp x y) :=
  fun _ => ⟨encode_lo .., BitVec.and_zero⟩

theorem EncodedOpcode.jmp (x : Byte) : EncodedOpcode.Statement (.jmp x) :=
  fun _ => ⟨encode_lo .., BitVec.and_zero⟩

theorem EncodedOpcode.je (x : Byte) : EncodedOpcode.Statement (.je x) :=
  fun _ => ⟨encode_lo .., BitVec.and_zero⟩

theorem EncodedOpcode.jne (x : Byte) : EncodedOpcode.Statement (.jne x) :=
  fun _ => ⟨encode_lo .., BitVec.and_zero⟩

theorem EncodedOpcode.load (x y : Reg) : EncodedOpcode.Statement (.load x y) :=
  fun _ => ⟨encode_lo .., BitVec.and_zero⟩

theorem EncodedOpcode.store (x y : Reg) : EncodedOpcode.Statement (.store x y) :=
  fun _ => ⟨encode_lo .., BitVec.and_zero⟩

theorem EncodedOpcode.signal (x : Byte) : EncodedOpcode.Statement (.signal x) :=
  fun _ => ⟨encode_lo .., BitVec.and_zero⟩

end Sys2Proof.Laws
end

