-- ==== Sys2Proof/Tests/Slice0.lean ====
section
/-! SUPPORT. Small tests, their expected results taken from the spec's own vectors (95_test_vectors.md, cited by
number), the smoke tests of WellFormed, and a concrete state for the hypotheses of every statement. -/

namespace Sys2Proof.Tests

open Sys2Proof.Machine Sys2Proof.Stmt

/-! ### WellFormed refuses what breaks a constraint -/

theorem test_default_config_wf : Config.default.wf := by decide

theorem test_wf_refuses_equal_opcodes :
    ¬ ({ Config.default with enc := { Encoding.default with opc := { OpcMap.default with add := 0x06 } } } : Config).wf := by
  decide

theorem test_wf_refuses_equal_register_numbers :
    ¬ RegMap.wf { RegMap.default with b := 0 } := by decide

theorem test_wf_refuses_register_number_nine :
    ¬ RegMap.wf { RegMap.default with b := 9 } := by decide

theorem test_wf_refuses_equal_flag_bits : ¬ FlagBits.wf ⟨0, 1, 1⟩ := by decide

theorem test_wf_refuses_no_memory : ¬ ({ Config.default with memK := 0 } : Config).wf := by decide

theorem test_wellFormed_refuses_register_out_of_range :
    (Instr.pop .b).wellFormed { RegMap.default with b := 9 } = false ∧
    (Instr.add .a .b).wellFormed { RegMap.default with b := 9 } = false ∧
    (Instr.add .a .b).wellFormed RegMap.default = true := by decide

theorem test_wf_refuses_load_base : ¬ ({ Config.default with loadBase := 2 } : Config).wf := by decide

theorem test_memory_wf_refuses :
    ¬ Memory.wf [(1, 5), (0, 5)] ∧ ¬ Memory.wf [(0, 5), (0, 6)] ∧ ¬ Memory.wf [(0, 0)] ∧
    Memory.wf [(0, 5), (1, 6)] := by decide

/-! ### Decoding: words written out from the encoding table (30_encoding.md R98, R100; vectors V1) -/

theorem test_decode_none_imm8_off8 :
    decode Encoding.default 0x0000 = .ok .nop ∧ decode Encoding.default 0xFF01 = .ok (.push 0xFF) ∧
    decode Encoding.default 0xF015 = .ok (.signal 0xF0) ∧ decode Encoding.default 0xFF10 = .ok (.jmp 0xFF) ∧
    decode Encoding.default 0x0211 = .ok (.je 2) ∧ decode Encoding.default 0x8012 = .ok (.jne 0x80) := by decide

theorem test_decode_reg :
    decode Encoding.default 0x0702 = .ok (.pop .fl) ∧ decode Encoding.default 0x0503 = .ok (.pushReg .pc) ∧
    decode Encoding.default 0x030E = .ok (.not .d) ∧ decode Encoding.default 0xF00E = .ok (.not .a) := by decide

theorem test_decode_reg2 :
    decode Encoding.default 0x0404 = .ok (.mov .sp .a) ∧ decode Encoding.default 0x0105 = .ok (.add .b .a) ∧
    decode Encoding.default 0x3206 = .ok (.sub .c .d) ∧ decode Encoding.default 0x1007 = .ok (.mul .a .b) ∧
    decode Encoding.default 0x1008 = .ok (.div .a .b) ∧ decode Encoding.default 0x1009 = .ok (.shl .a .b) ∧
    decode Encoding.default 0x100A = .ok (.shr .a .b) ∧ decode Encoding.default 0x210B = .ok (.and .b .c) ∧
    decode Encoding.default 0x100C = .ok (.or .a .b) ∧ decode Encoding.default 0x000D = .ok (.xor .a .a) ∧
    decode Encoding.default 0x670F = .ok (.cmp .fl .bp) ∧ decode Encoding.default 0x2113 = .ok (.load .b .c) ∧
    decode Encoding.default 0x2014 = .ok (.store .a .c) := by decide

theorem test_decode_illegal :
    decode Encoding.default 0xABFF = .error (.unknownOpcode 0xFF) ∧
    decode Encoding.default 0x0802 = .error (.invalidRegister 8) ∧
    decode Encoding.default 0x090E = .error (.invalidRegister 9) ∧
    decode Encoding.default 0x1805 = .error (.invalidRegister 8) ∧
    decode Encoding.default 0x9A05 = .error (.invalidRegister 0xA) := by decide

theorem test_table_word : decodeTableWord 16 0x3206 = some (.sub .c .d) ∧ decodeTableWord 8 0xFF10 = some (.jmp 0) ∧
    decodeTableWord 16 0x0016 = none := by decide

/-! ### One step on a small state -/

/-- The parameters of the spec's vectors: 1024 bytes and the test table (46_signal.md R224). -/
def vectorConfig : Config := { Config.default with sigtab := Config.testSigtab }

/-- A running state with the word `w` at 0x0100, PC there, the registers as given but for PC, and memory `m` below
0x0100. -/
def at100 (w : Word) (r : RegFile) (m : Memory := []) : State :=
  { State.resetWith vectorConfig with
    regs := { r with pc := 0x0100 }
    mem := (m.write 0x100 (Word.lo w)).write 0x101 (Word.hi w) }

/-- All registers 0. -/
def zeros : RegFile := PerReg.const 0

/-- What `f` says of the state after one step, if there is one. -/
def after {α : Type} (s : State) (f : State → α) : Option α :=
  match step s with
  | .next t => some (f t)
  | .fault _ => none
  | .refused _ => none

/-- One register and FL. -/
def regAndFl (r : Reg) (t : State) : Word × Word := (t.reg r, t.reg .fl)

/-- The latch and PC. -/
def faultAndPc (t : State) : Option CoreFault × Word := (t.fault, t.reg .pc)

theorem test_nop : after (at100 0x0000 zeros) (fun t => (t.regs, t.fault)) = some ({ zeros with pc := 0x102 }, none) := by
  decide

/- V2 -/
theorem test_add_flags :
    after (at100 0x1005 { zeros with a := 0xFFFF, b := 1 }) (regAndFl .a) = some (0, 5) ∧
    after (at100 0x1005 { zeros with a := 1, b := 1, fl := 0xFFFF }) (regAndFl .a) = some (2, 0xFFF8) := by decide
theorem test_add_special_destinations :
    after (at100 0x0705 { zeros with a := 0xFFF0, fl := 0x10 }) (regAndFl .fl) = some (5, 5) ∧
    after (at100 0x0505 { zeros with a := 0x10 }) (regAndFl .pc) = some (0x112, 0) := by decide
theorem test_sub_borrow : after (at100 0x1006 { zeros with a := 3, b := 5 }) (regAndFl .a) = some (0xFFFE, 6) := by decide
theorem test_mul_overflow :
    after (at100 0x1007 { zeros with a := 0x12C, b := 0x12C }) (regAndFl .a) = some (0x5F90, 4) := by decide
theorem test_div_truncates : after (at100 0x1008 { zeros with a := 7, b := 2 }) (regAndFl .a) = some (3, 0) := by decide
theorem test_div_by_zero :
    after (at100 0x1008 { zeros with a := 7, fl := 2 }) (fun t => (faultAndPc t, regAndFl .a t)) =
      some ((some .divisionByZero, 0x102), 7, 2) := by decide
theorem test_shl_seventeen : after (at100 0x1009 { zeros with a := 0x1234, b := 0x11 }) (regAndFl .a) = some (0x2468, 4) := by
  decide
theorem test_shr_twenty : after (at100 0x100A { zeros with a := 0x1234, b := 0x14 }) (regAndFl .a) = some (0x123, 4) := by
  decide
theorem test_and_zero : after (at100 0x100B { zeros with a := 0xF0F0, b := 0x0F0F }) (regAndFl .a) = some (0, 1) := by decide
theorem test_or : after (at100 0x100C { zeros with a := 0xF0, b := 0x8000 }) (regAndFl .a) = some (0x80F0, 2) := by decide
theorem test_xor : after (at100 0x100D { zeros with a := 0xFFFF, b := 0xFF }) (regAndFl .a) = some (0xFF00, 2) := by decide
theorem test_not_fl : after (at100 0x070E { zeros with fl := 5 }) (regAndFl .fl) = some (0xFFFA, 0xFFFA) := by decide

/- V3 -/
theorem test_mov_reads_next : after (at100 0x5004 zeros) (fun t => (t.reg .a, t.reg .pc)) = some (0x102, 0x102) := by decide
theorem test_mov_pc_odd : after (at100 0x0504 { zeros with a := 0x301 }) (fun t => t.reg .pc) = some 0x301 := by decide
theorem test_cmp_less :
    after (at100 0x100F { zeros with a := 3, b := 5, fl := 0xFFFC }) (regAndFl .a) = some (3, 0xFFFE) := by decide
theorem test_cmp_unsigned :
    after (at100 0x100F { zeros with a := 0x8000, b := 0x7FFF, fl := 3 }) (regAndFl .a) = some (0x8000, 0) := by decide

/- V4 -/
theorem test_push_zero_extends :
    after (at100 0xFF01 { zeros with sp := 0x200 }) (fun t => (t.mem.read 0x200, t.mem.read 0x201, t.reg .sp)) =
      some (0xFF, 0, 0x202) := by decide
theorem test_push_stores_nothing_at_the_end :
    after (at100 0x0A01 { zeros with sp := 0x3FF }) (fun t => (t.fault, t.mem.read 0x3FF, t.reg .sp)) =
      some (some (.outOfBounds 0x400), 0, 0x3FF) := by decide
theorem test_pushReg_sp :
    after (at100 0x0403 { zeros with sp := 0x200 }) (fun t => (t.mem.read 0x200, t.mem.read 0x201, t.reg .sp)) =
      some (0, 2, 0x202) := by decide
theorem test_pushReg_pc :
    after (at100 0x0503 { zeros with sp := 0x200 }) (fun t => (t.mem.read 0x200, t.mem.read 0x201)) = some (2, 1) := by
  decide
theorem test_pop_sp : after (at100 0x0402 { zeros with sp := 0x42 } [(0x40, 0x34), (0x41, 0x12)]) (fun t => t.reg .sp) =
    some 0x1234 := by decide
theorem test_pop_faults :
    after (at100 0x0002 { zeros with sp := 0x401 }) (fun t => (t.fault, t.reg .sp, t.reg .a)) =
      some (some (.outOfBounds 0x400), 0x3FF, 0) ∧
    after (at100 0x0002 { zeros with sp := 1 }) (fun t => (faultAndPc t, t.reg .sp)) =
      some ((some .stackUnderflow, 0x102), 1) := by decide

/- V5 -/
theorem test_jmp_back : after (at100 0x8010 zeros) (fun t => t.reg .pc) = some 2 := by decide
theorem test_jmp_forward : after (at100 0x7F10 zeros) (fun t => t.reg .pc) = some 0x200 := by decide
theorem test_je_taken : after (at100 0x0211 { zeros with fl := 1 }) (fun t => t.reg .pc) = some 0x106 := by decide
theorem test_je_not_taken : after (at100 0x0211 { zeros with fl := 6 }) (fun t => t.reg .pc) = some 0x102 := by decide
theorem test_jne_taken : after (at100 0xFD12 zeros) (fun t => t.reg .pc) = some 0xFC := by decide
theorem test_jne_not_taken : after (at100 0xFD12 { zeros with fl := 1 }) (fun t => t.reg .pc) = some 0x102 := by decide

/- V6 -/
theorem test_load_odd :
    after (at100 0x2113 { zeros with c := 0x41 } [(0x41, 0x22), (0x42, 0x11)]) (fun t => t.reg .b) = some 0x1122 := by decide
theorem test_load_out_of_range :
    after (at100 0x2113 { zeros with c := 0x3FF }) (fun t => (t.fault, t.reg .b)) = some (some (.outOfBounds 0x400), 0) := by
  decide
theorem test_store :
    after (at100 0x2014 { zeros with a := 0x1234, c := 0x40 }) (fun t => (t.mem.read 0x40, t.mem.read 0x41)) =
      some (0x34, 0x12) := by decide
theorem test_store_out_of_range :
    after (at100 0x2014 { zeros with a := 0x1234, c := 0xFFFF }) faultAndPc = some (some (.outOfBounds 0xFFFF), 0x102) := by
  decide

/- V7 -/
theorem test_signal_test_table :
    after (at100 0xF015 zeros) (fun t => (t.halted, faultAndPc t)) = some (true, none, 0x102) ∧
    after (at100 0x0115 zeros) faultAndPc = some (some (.unknownSignal 1), 0x102) := by decide

/- V7.4: the handler A <- A + 1; pc <- 0 -/
theorem test_signal_handler_writes_registers :
    after { at100 0x0215 zeros with
        cfg := { vectorConfig with sigtab := [(2, .script [.setReg .a (.add (.reg .a) (.lit 1)), .setReg .pc (.lit 0)])] } }
      (fun t => (t.reg .a, t.reg .pc)) = some (1, 0) := by decide

/-- The test table's handler guarded: if A = 0 then halted. -/
def haltsIfZero : Handler := .prog (.ite (.eq (.reg .a) (.lit 0)) (.act (.setHalted true) .done) .done)

/-- `sample` on a machine on which that is the handler of id 2, about `Signal 2`, with A as given. -/
def guarded (a : Word) : State :=
  { at100 0x0215 { zeros with a := a } with cfg := { vectorConfig with sigtab := [(2, haltsIfZero)] } }

theorem test_signal_handler_branches :
    after (guarded 0) (fun t => t.halted) = some true ∧ after (guarded 1) (fun t => t.halted) = some false := by decide

/- V8 -/
theorem test_fetch_high_byte_out_of_range :
    after { at100 0 zeros with regs := { zeros with pc := 0x3FF } } faultAndPc = some (some (.outOfBounds 0x400), 0x3FF) := by
  decide
theorem test_halted_takes_no_step : after { at100 0 zeros with halted := true } (fun t => t.reg .pc) = none := by decide
theorem test_faulted_takes_no_step :
    after { at100 0 zeros with fault := some .divisionByZero } (fun t => t.reg .pc) = none := by decide

theorem test_unknown_opcode : after (at100 0x8816 zeros) faultAndPc = some (some (.unknownOpcode 0x16), 0x102) := by decide

/-- The codes of 60_exceptions.md R231. -/
theorem test_fault_codes :
    [none, some (.outOfBounds 0), some (.unknownOpcode 0), some (.invalidRegister 8), some (.unknownSignal 0),
      some .stackUnderflow, some .divisionByZero].map faultCode = [0, 1, 2, 3, 4, 5, 6] := by decide

/-- Program P1's first word, loaded at 0 after reset: the push overwrites the `Push` itself. -/
theorem test_first_step_from_reset :
    after (State.reset.withFetchWord 16 0x0A01) (fun t => (t.mem, t.reg .sp, t.reg .pc)) = some ([(0, 0x0A)], 2, 2) := by
  decide

theorem test_load_program :
    (match State.reset.loadProgram [0x01, 0x0A] with | .ok t => some t.mem | .error _ => none) =
      some [(0, 0x01), (1, 0x0A)] := by decide

/-- 00_scope.md R9 and 44_branch.md R200: the target is the same through `sext_16`. -/
theorem test_branch_target_sext :
    branchTarget 4 0xFF = 4 + 2 * sext16 0xFF ∧ branchTarget 2 0xFE = 0xFFFE ∧ branchTarget 2 0x7F = 2 + 2 * sext16 0x7F := by
  decide

/-! ### Witnesses: a concrete state for the hypotheses of every statement -/

/-- The state after a step, where there is one. -/
def nextOf (s : State) : State :=
  match step s with
  | .next t => t
  | .fault _ => s
  | .refused _ => s

/-- A step that evaluates to a next state is the step to `nextOf`. -/
theorem step_eq_nextOf {s : State} (h : (after s (fun _ => ())) = some ()) : step s = .next (nextOf s) := by
  unfold after at h
  unfold nextOf
  split at h <;> simp_all

theorem not_callsHandler {i : Instr} {s : State} (h : i.mnemonic ≠ .signal) : ¬ CallsHandler i s := by
  rintro ⟨id, hd, rfl, _⟩
  exact h rfl

/-- Where the fetched word decodes to no `Signal`, no handler is called. -/
theorem no_handler_about {s : State} {w : Word} {j : Instr} (hw : s.fetch = .ok w)
    (hd : decode s.cfg.enc w = .ok j) (h : j.mnemonic ≠ .signal) (i : Instr) (hi : About s i) : ¬ CallsHandler i s := by
  obtain ⟨_, v, hv, hdv⟩ := hi
  rw [hw] at hv; cases hv
  rw [hd] at hdv; cases hdv
  exact not_callsHandler h

/-- A state that meets the invariant, with registers and memory that statements can be tried on. -/
def sample : State :=
  at100 0x1008 { zeros with a := 7, c := 0x40, d := 0xFFFF, sp := 0x42, bp := 0x3FF, fl := 6 } [(0x40, 0x34), (0x41, 0x12)]

theorem sample_inv : sample.Inv := ⟨by decide, by decide, by decide⟩

/-- A state about `Shr A B` on a machine whose NUM gives 7 shifted right by 0 as 0x8000, with Overflow. -/
def otherNum : State :=
  { at100 0x100A { zeros with a := 7 } with cfg := { vectorConfig with num := [⟨.shr, 7, 0, 0x8000, true⟩] } }

/-- Encoding.wf, for DecodeInvertsEncode, EncodeFollowsTheFormulas, DecodeFollowsTheAlgorithm, UnusedBitsAreIgnored. -/
theorem witness_encoding_wf : Encoding.default.wf := by decide

/-- DecodeInvertsEncode, second clause, with unused bits 0 and not 0. -/
theorem witness_decoded_words :
    decode Encoding.default 0x0102 = .ok (.pop .b) ∧ decode Encoding.default 0x5102 = .ok (.pop .b) := by decide

/-- DecodeFollowsTheAlgorithm: each clause, register fields at 7 and 8. -/
theorem witness_decode_clauses :
    (∀ m ∈ Mnemonic.all, OpcMap.default.get m ≠ Word.lo 0x0016) ∧
    OpcMap.default.get .nop = Word.lo 0xFF00 ∧ OpcMap.default.get .push = Word.lo 0x0001 ∧
    OpcMap.default.get .jmp = Word.lo 0x8010 ∧
    (OpcMap.default.get .pop = Word.lo 0x0702 ∧ (Word.r1 0x0702).toNat = 7) ∧
    (OpcMap.default.get .pop = Word.lo 0x0802 ∧ (Word.r1 0x0802).toNat = 8) ∧
    (OpcMap.default.get .add = Word.lo 0x7705 ∧ (Word.r1 0x7705).toNat = 7 ∧ (Word.r2 0x7705).toNat = 7) ∧
    (OpcMap.default.get .add = Word.lo 0x8705 ∧ (Word.r1 0x8705).toNat = 7 ∧ (Word.r2 0x8705).toNat = 8) ∧
    (OpcMap.default.get .add = Word.lo 0x0805 ∧ (Word.r1 0x0805).toNat = 8) := by decide

/-- UnusedBitsAreIgnored: two words of each shape that differ in unused bits alone. -/
theorem witness_unused_bits :
    OpcMap.default.get .nop = Word.lo 0x3400 ∧ Word.lo 0x3400 = Word.lo 0x0000 ∧
    OpcMap.default.get .pop = Word.lo 0x5102 ∧ Word.lo 0x5102 = Word.lo 0x0102 ∧ Word.r1 0x5102 = Word.r1 0x0102 := by decide

/-- UnknownOpcodeFaultsAfterTheAdvance. -/
theorem witness_unknown_opcode :
    (at100 0xABFF zeros).condition = .running ∧ (at100 0xABFF zeros).fetch = .ok 0xABFF ∧
    ∀ m ∈ Mnemonic.all, (at100 0xABFF zeros).cfg.enc.opc.get m ≠ Word.lo 0xABFF := by decide

/-- StepRunsTheDecodedInstruction: each clause. -/
theorem witness_step_clauses :
    (sample.condition = .running ∧ sample.fetch = .ok 0x1008 ∧ decode sample.cfg.enc 0x1008 = .ok (.div .a .b)) ∧
    ((at100 0x0802 zeros).condition = .running ∧ (at100 0x0802 zeros).fetch = .ok 0x0802 ∧
      decode (at100 0x0802 zeros).cfg.enc 0x0802 = .error (.invalidRegister 8)) ∧
    ({ sample with regs := { zeros with pc := 0x3FF } } : State).condition = .running ∧
    ({ sample with regs := { zeros with pc := 0x3FF } } : State).fetch = .error (.outOfBounds 0x400) := by decide

/-- StepsExactlyWhileRunning, last clause: a halted and a faulted state. -/
theorem witness_not_running :
    ({ sample with halted := true } : State).condition ≠ .running ∧
    ({ sample with fault := some .stackUnderflow } : State).condition ≠ .running := by decide

/-- PcMovesByTwoOtherwise and PcStaysEven: an addition into A; for PcStaysEven a taken branch as well. -/
theorem witness_pc_statements :
    ∃ s t i, About s i ∧ step s = .next t ∧ ¬ Taken i s.advancePc ∧ dest i ≠ some .pc ∧ ¬ CallsHandler i s ∧
      (s.reg .pc).toNat % 2 = 0 :=
  ⟨at100 0x1005 zeros, nextOf (at100 0x1005 zeros), .add .a .b, ⟨by decide, 0x1005, by decide, by decide⟩,
    step_eq_nextOf (by decide), by simp [Taken], by decide, not_callsHandler (by decide), by decide⟩

theorem witness_pc_even_branch :
    ∃ s t i, About s i ∧ step s = .next t ∧ Taken i s.advancePc ∧ dest i ≠ some .pc ∧ ¬ CallsHandler i s ∧
      (s.reg .pc).toNat % 2 = 0 :=
  ⟨at100 0xFF10 zeros, nextOf (at100 0xFF10 zeros), .jmp 0xFF, ⟨by decide, 0xFF10, by decide, by decide⟩,
    step_eq_nextOf (by decide), .inl ⟨_, rfl⟩, by decide, not_callsHandler (by decide), by decide⟩

/-- ZeroedMemoryRunsAsNops: the last word of memory, so that the second clause applies as well. -/
theorem witness_zeroed_memory :
    let s : State := { sample with regs := { zeros with pc := 0x3FE } }
    s.condition = .running ∧ s.cfg.enc.wf ∧ s.cfg.enc.opc.get .nop = 0 ∧ (s.reg .pc).toNat + 2 * 1 ≤ 65535 ∧
      (s.readByte 0x3FE = .ok 0 ∧ s.readByte 0x3FF = .ok 0) ∧ (s.reg .pc).toNat + 2 * 1 = s.memSize := by decide

/-- FaultsArePrecise: a fault in execution, and the failed read of a `Pop`. -/
theorem witness_precise_fault :
    ∃ s t f, step s = .next t ∧ t.fault = some f ∧ (∀ i, About s i → ¬ CallsHandler i s) ∧
      s.fetch = .ok 0x1008 :=
  ⟨sample, nextOf sample, .divisionByZero, step_eq_nextOf (by decide), by decide,
    no_handler_about (w := 0x1008) (j := .div .a .b) (by decide) (by decide) (by decide), by decide⟩

theorem witness_precise_fault_of_pop :
    ∃ s t f, step s = .next t ∧ t.fault = some f ∧ (∀ i, About s i → ¬ CallsHandler i s) ∧
      s.fetch = .ok 0x0002 ∧ decode s.cfg.enc 0x0002 = .ok (.pop .a) ∧ f ≠ .stackUnderflow ∧ t.reg .sp ≠ s.reg .sp :=
  ⟨at100 0x0002 { zeros with sp := 0x402 }, nextOf (at100 0x0002 { zeros with sp := 0x402 }), .outOfBounds 0x400,
    step_eq_nextOf (by decide), by decide,
    no_handler_about (w := 0x0002) (j := .pop .a) (by decide) (by decide) (by decide),
    by decide, by decide, by decide, by decide⟩

/-- `sample` with PC just past the end of memory. -/
def pastTheEnd : State := sample.setReg .pc 0x400

theorem pastTheEnd_fetch : pastTheEnd.fetch = .error (.outOfBounds 0x400) := by decide

theorem pastTheEnd_fetches_nothing (i : Instr) : ¬ About pastTheEnd i := by
  rintro ⟨_, w, hw, _⟩
  rw [pastTheEnd_fetch] at hw; cases hw

theorem witness_precise_fetch_fault :
    ∃ s t f, step s = .next t ∧ t.fault = some f ∧ (∀ i, About s i → ¬ CallsHandler i s) ∧ s.fetch = .error f :=
  ⟨pastTheEnd, nextOf pastTheEnd, .outOfBounds 0x400, step_eq_nextOf (by decide), by decide,
    fun i hi => absurd hi (pastTheEnd_fetches_nothing i), pastTheEnd_fetch⟩

/-- FaultsByInstruction. -/
theorem witness_fault_by_instruction :
    sample.fault = none ∧ ∃ t, exec (.div .a .b) sample = .next t ∧ t.fault = some .divisionByZero :=
  ⟨by decide, _, rfl, by decide⟩

/-- SuccessfulRunEndsInASignal: one step of `Signal $F0` under the test table. -/
theorem witness_successful_run :
    (at100 0xF015 zeros).condition = .running ∧
      EndsSuccessfully 1 (at100 0xF015 zeros) (runLoop 1 (at100 0xF015 zeros)) :=
  ⟨by decide, rfl, by decide⟩

/-- Every statement whose premise is the invariant alone, or the invariant and ranges: LoadPlacesTheImage (an image
that just fits and one that does not), EveryAccessIsRangeChecked, WordReadIsLittleEndian and WordWriteIsAllOrNothing
(addresses 0x3FE, 0x3FF and 0x400), the arithmetic, compare, push and store statements. -/
theorem witness_invariant_and_ranges :
    sample.Inv ∧ 0x3FE + [(1 : Byte), 2].length ≤ sample.memSize ∧ sample.memSize < 0x3FF + [(1 : Byte), 2].length ∧
      0x3FE + 1 < sample.memSize ∧ (0x3FF < sample.memSize ∧ sample.memSize ≤ 0x3FF + 1) ∧ sample.memSize ≤ 0x400 :=
  ⟨sample_inv, by decide⟩

/-- WordReadIsLittleEndian, first clause, and LoadReadsTheAddressedWord, first clause, at C = 0x40. -/
theorem witness_two_bytes_read :
    sample.readByte 0x40 = .ok 0x34 ∧ sample.readByte (0x40 + 1) = .ok 0x12 ∧ (sample.reg .c).toNat = 0x40 := by decide

/-- ArithmeticAppliesNum, DivTruncatesOrFaults and the other arithmetic statements: a divisor that is 0 (B) and one
that is not (C), NUM at its defaults; and a machine with another NUM. -/
theorem witness_divisors :
    sample.Inv ∧ DefaultNum sample ∧ sample.reg .b = 0 ∧ sample.reg .c ≠ 0 ∧ otherNum.Inv ∧ ¬ DefaultNum otherNum :=
  ⟨sample_inv, by decide, by decide, by decide, ⟨by decide, by decide, by decide⟩, by decide⟩

/-- NUM is read from the parameter: 7 shifted by 0 is what the entry says. -/
theorem test_num_is_a_parameter : after otherNum (regAndFl .a) = some (0x8000, 6) := by decide

/-- LoadReadsTheAddressedWord and StoreWritesTheAddressedWord: BP just at the end of memory, D beyond it, C inside. -/
theorem witness_addresses :
    sample.Inv ∧ sample.regAddr .c + 1 < sample.memSize ∧
      (sample.regAddr .bp < sample.memSize ∧ sample.memSize ≤ sample.regAddr .bp + 1) ∧
      sample.memSize ≤ sample.regAddr .d := ⟨sample_inv, by decide⟩

/-- The push statements: SP with room, with one byte of room, and with none. -/
theorem witness_push_addresses :
    sample.Inv ∧ sample.pushAddr + 1 < sample.memSize ∧
      ((sample.setReg .sp 0x3FF).Inv ∧ (sample.setReg .sp 0x3FF).pushAddr < sample.memSize ∧
        sample.memSize ≤ (sample.setReg .sp 0x3FF).pushAddr + 1) ∧
      ((sample.setReg .sp 0x400).Inv ∧ sample.memSize ≤ (sample.setReg .sp 0x400).pushAddr) :=
  ⟨sample_inv, by decide, ⟨sample_inv, by decide⟩, sample_inv, by decide⟩

/-- PopLoadsFromTheNewTop: SP below 2, SP of 2 or more with a word there, and with none. -/
theorem witness_pop :
    ((sample.setReg .sp 1).reg .sp).toNat < 2 ∧ 2 ≤ (sample.reg .sp).toNat ∧
      sample.readWord sample.popAddr = .ok 0x1234 ∧
      2 ≤ ((sample.setReg .sp 0x402).reg .sp).toNat ∧
      (sample.setReg .sp 0x402).readWord (sample.setReg .sp 0x402).popAddr = .error (.outOfBounds 0x400) := by decide

/-- PopReturnsWhatWasPushed, for both kinds of push. -/
theorem witness_push_then_pop :
    sample.Inv ∧ (Reg.b ≠ .sp) ∧ (∃ r, Instr.pushReg .a = .pushReg r ∧ sample.reg .a = sample.reg r) ∧
      (∃ imm : Byte, Instr.push 0xFF = .push imm ∧ (0x00FF : Word).toNat = imm.toNat) ∧
      sample.pushAddr + 1 < sample.memSize ∧ sample.pushAddr ≤ 65533 :=
  ⟨sample_inv, by decide, ⟨.a, rfl, rfl⟩, ⟨0xFF, rfl, by decide⟩, by decide⟩

/-- OverlappingWordsShareAByte. -/
theorem witness_overlapping :
    ∃ (s t : State) (a : Nat) (v : Word), s.Inv ∧ s.writeWord a v = .ok t ∧ a + 2 < s.memSize :=
  ⟨sample, _, 0x50, 0x1234, sample_inv, rfl, by decide⟩

/-- StoreIsSeenByTheNextFetch: `Store A PC` with the word of `Nop` in A. -/
theorem witness_store_seen :
    let s := at100 0x5014 zeros
    s.Inv ∧ About s (.store .a .pc) ∧ s.advancePc.regAddr .pc = (s.advancePc.reg .pc).toNat ∧
      s.advancePc.reg .a = encode s.cfg.enc .nop ∧ (s.advancePc.reg .pc).toNat + 1 < s.memSize :=
  ⟨⟨by decide, by decide, by decide⟩, ⟨by decide, 0x5014, by decide, by decide⟩, by decide, by decide, by decide⟩

/-- FlagWritesLeaveOtherBits and ResultIntoFlagsRegister. -/
theorem witness_flag_bits : FlagBits.default.wf ∧ sample.cfg.flbit = FlagBits.default := by decide

/-- OtherInstructionsKeepFlags. -/
theorem witness_other_instruction :
    (Instr.mov .a .b).mnemonic ∈
      [Mnemonic.nop, .mov, .push, .pushReg, .pop, .jmp, .je, .jne, .load, .store, .signal] ∧
    dest (.mov .a .b) ≠ some .fl ∧ ¬ CallsHandler (.mov .a .b) sample ∧ ∃ t, exec (.mov .a .b) sample = .next t :=
  ⟨by decide, by decide, not_callsHandler (by decide), _, rfl⟩

/-- NopOnlyAdvances and JmpAddsTwiceTheOffset: states about those instructions, with a next state. -/
theorem witness_nop_and_jmp :
    About (at100 0x0000 zeros) .nop ∧
    (About (at100 0x0010 zeros) (.jmp 0) ∧ ∃ t, step (at100 0x0010 zeros) = .next t) ∧
    (About (at100 0xFF10 zeros) (.jmp 0xFF) ∧ ∃ t, step (at100 0xFF10 zeros) = .next t) ∧
    (About (at100 0xFE10 zeros) (.jmp 0xFE) ∧ ∃ t, step (at100 0xFE10 zeros) = .next t) :=
  ⟨⟨by decide, 0x0000, by decide, by decide⟩,
    ⟨⟨by decide, 0x0010, by decide, by decide⟩, _, step_eq_nextOf (by decide)⟩,
    ⟨⟨by decide, 0xFF10, by decide, by decide⟩, _, step_eq_nextOf (by decide)⟩,
    ⟨⟨by decide, 0xFE10, by decide, by decide⟩, _, step_eq_nextOf (by decide)⟩⟩

/-- SignalRunsTheRegisteredHandler: an unregistered id, and the handler that sets `halted`. -/
theorem witness_signal :
    sample.handler 1 = none ∧ sample.handler 0xF0 = some (.script [.setHalted true]) := by decide

/-- `sample` on a machine on which `h` is the handler of id 2. -/
def withHandler (h : Handler) : State := { sample with cfg := { vectorConfig with sigtab := [(2, h)] } }

theorem withHandler_inv (h : Handler) : (withHandler h).Inv := ⟨sample_inv.1, sample_inv.2.1, sample_inv.2.2⟩

/-- The course that writes A. -/
def writesA : HandlerProg := .act (.setReg .a (.lit 0xBEEF)) .done

/-- The course that writes A and then the byte at `a`, and the one that reads that byte into B. -/
def thenWrites (a : Nat) : HandlerProg := writesA.andThen (.act (.writeByte (.lit a) (.lit 0x55)) .done)
def thenReads (a : Nat) : HandlerProg := writesA.andThen (.act (.setReg .b (.byte (.lit a))) .done)

/-- HandlerAccessesAreBoundsChecked, reads: the last byte of memory and the address after it. -/
theorem witness_handler_read :
    sample.hostVal (.lit 0x3FF) = .ok 0x3FF ∧ sample.readByte 0x3FF = .ok 0 ∧
      sample.hostVal (.lit 0x400) = .ok 0x400 ∧ sample.memSize ≤ 0x400 := by decide

/-- HandlerAccessesAreBoundsChecked, a course that fails, with more to follow. -/
theorem witness_handler_fails :
    ∃ u f, (withHandler (.prog ((thenWrites 0x400).andThen writesA))).runAsHandler 2 (thenWrites 0x400) = .failed u f ∧
      (withHandler (.prog ((thenWrites 0x400).andThen writesA))).handler 2 =
        some (.prog ((thenWrites 0x400).andThen writesA)) := ⟨_, _, rfl, rfl⟩

/-- HandlerAccessesAreBoundsChecked, a write and a read after a course, in range and just beyond it. -/
theorem witness_handler_write (a : Nat) (ha : a = 0x3FF ∨ a = 0x400) :
    let s := withHandler (.prog (thenWrites a))
    s.Inv ∧ (a < s.memSize ∨ s.memSize ≤ a) ∧ s.handler 2 = some (.prog (thenWrites a)) ∧
      ∃ u c, s.runAsHandler 2 writesA = .done u c ∧ u.hostVal (.lit a) = .ok a ∧ u.hostVal (.lit 0x55) = .ok 0x55 := by
  rcases ha with rfl | rfl <;> exact ⟨withHandler_inv _, by decide, rfl, _, _, rfl, rfl, rfl⟩

theorem witness_handler_read_after (a : Nat) (ha : a = 0x3FF ∨ a = 0x400) :
    let s := withHandler (.prog (thenReads a))
    (a < s.memSize ∨ s.memSize ≤ a) ∧ s.handler 2 = some (.prog (thenReads a)) ∧
      ∃ u c, s.runAsHandler 2 writesA = .done u c ∧ u.hostVal (.lit a) = .ok a := by
  rcases ha with rfl | rfl <;> exact ⟨by decide, rfl, _, _, rfl, rfl⟩

/-- HandlersBranchAndChoose: a question answered either way, one that fails, a choice, unknown values. -/
theorem witness_handler_branches :
    ((guarded 0).handler 2 = some haltsIfZero ∧ (guarded 0).hostCond (.eq (.reg .a) (.lit 0)) = .ok true ∧
      (guarded 1).hostCond (.eq (.reg .a) (.lit 0)) = .ok false) ∧
    (withHandler (.prog (.ite (.eq (.byte (.lit 0x400)) (.lit 0)) .done writesA))).hostCond
        (.eq (.byte (.lit 0x400)) (.lit 0)) = .error (.outOfBounds 0x400) ∧
    (withHandler (.prog (.choose .done writesA))).handler 2 = some (.prog (.choose .done writesA)) ∧
    (withHandler (.script [.anyReg .a])).handler 2 = some (.script [.anyReg .a]) ∧
    (withHandler (.script [.anyByte (.lit 0x3FF)])).handler 2 = some (.script [.anyByte (.lit 0x3FF)]) ∧
    (withHandler (.script [.anyByte (.lit 0x3FF)])).Inv ∧
    0x3FF < (withHandler (.script [.anyByte (.lit 0x3FF)])).memSize := by
  refine ⟨by decide, by decide, by decide, by decide, by decide, withHandler_inv _, by decide⟩

/-- LoadedProgramStartsAtPc: a program of two bytes. -/
theorem witness_loaded_program :
    Config.default.wf ∧ ∃ t, (State.resetWith Config.default).loadProgram [0x01, 0x0A] = .ok t := ⟨by decide, _, rfl⟩

/-- OnlyHandlersChangeHalted. -/
theorem witness_halted_changes :
    ∃ t, exec (.signal 0xF0) sample = .next t ∧ t.halted ≠ sample.halted := ⟨_, rfl, by decide⟩

/-- StepsKeepTheParameters and StepKeepsInvariant. -/
theorem witness_step_from_invariant : ∃ s t : State, s.Inv ∧ step s = .next t :=
  ⟨sample, nextOf sample, sample_inv, step_eq_nextOf (by decide)⟩

/-- MemoryChangesOnlyWhereStored and RegistersWrittenImplicitly: a push. -/
theorem witness_push_changes :
    ∃ t, sample.Inv ∧ exec (.push 5) sample = .next t ∧ ¬ CallsHandler (.push 5) sample ∧
      t.readByte 0x42 ≠ sample.readByte 0x42 ∧ t.reg .sp ≠ sample.reg .sp :=
  ⟨_, sample_inv, rfl, not_callsHandler (by decide), by decide, by decide⟩

/-- UnnamedRegistersDoNotMatter. -/
theorem witness_unnamed :
    Reg.bp ∈ [Reg.a, .b, .c, .d, .bp] ∧ Reg.bp ∉ operandRegs (.add .a .b) ∧ (Instr.add .a .b).mnemonic ≠ .signal := by
  decide

/-- ResetMeetsInvariant. -/
theorem witness_config : Config.default.wf ∧ vectorConfig.wf := by decide

end Sys2Proof.Tests
end

section
/-! SUPPORT. The register file and reset (10_state.md): the frame of a register write, and what the state after reset
holds. -/

namespace Sys2Proof

@[simp] theorem bitAt_zero (k : Nat) : bitAt 0 k = false := BitVec.getLsbD_zero

namespace Machine

open Sys2Proof.Stmt

/-- The frame of a register write (10_state.md R30). -/
theorem setReg_onlyRegs (s : State) (r : Reg) (v : Word) : OnlyRegs [r] s (s.setReg r v) := by
  refine ⟨?others, setReg_readByte s r v, ⟨rfl, rfl, rfl, rfl⟩, rfl⟩
  case others => exact fun q hq => reg_setReg_ne s r q v (List.ne_of_not_mem_cons hq)

section Reset
variable (c : Config)

@[simp] theorem resetWith_mem : (State.resetWith c).mem = [] := rfl
@[simp] theorem resetWith_halted : (State.resetWith c).halted = false := rfl
@[simp] theorem resetWith_fault : (State.resetWith c).fault = none := rfl
@[simp] theorem resetWith_cfg : (State.resetWith c).cfg = c := rfl
@[simp] theorem resetWith_memSize : (State.resetWith c).memSize = c.memSize := rfl

@[simp] theorem resetWith_condition : (State.resetWith c).condition = .running :=
  condition_running_iff.mpr ⟨resetWith_fault c, resetWith_halted c⟩

/-- Every flag is clear after reset, wherever FLBIT puts it (10_state.md R44). -/
@[simp] theorem resetWith_flag (f : Flag) : (State.resetWith c).flag f = false := by
  rw [State.flag, resetWith_reg, readFlag, bitAt_zero]

/-- Memory is zeroed by reset (10_state.md R44). -/
theorem resetWith_readByte {a : Nat} (h : a < c.memSize) : (State.resetWith c).readByte a = .ok 0 :=
  readByte_ok_iff.mpr ⟨h, Memory.read_nil a⟩

end Reset

theorem hostReset_eq (s : State) : s.hostReset = State.resetWith s.cfg := rfl

/-- Settles O15: the register table holds one cell per register, so a write reaches its own cell and no other. -/
theorem everyRegisterHoldsWhatWasWritten : Obligations.EveryRegisterHoldsWhatWasWritten := by
  refine ⟨Reg.mem_all, by decide, fun s r q v => ⟨?readAfterWrite, ?frame⟩⟩
  case readAfterWrite => exact reg_setReg s r q v
  case frame => exact setReg_onlyRegs s r v

/-- Settles O16: a reset by the host is `State.resetWith` of the machine's own parameters, and the interface starts at
the reset of the default machine. -/
theorem resetLeavesZeros : Obligations.ResetLeavesZeros := by
  refine ⟨fun s => ?zeros, State.reset, ?interface⟩
  case zeros =>
    rw [hostReset_eq]
    have flBits (k : Nat) : bitAt ((State.resetWith s.cfg).reg .fl) k = false := by rw [resetWith_reg, bitAt_zero]
    exact ⟨resetWith_reg s.cfg, resetWith_flag s.cfg, flBits, resetWith_halted s.cfg, resetWith_fault s.cfg,
      resetWith_condition s.cfg, fun _ ha => resetWith_readByte s.cfg ha, resetWith_cfg s.cfg⟩
  case interface => exact (hostReset_eq State.reset).symm

end Machine

end Sys2Proof
end

section
/-! SUPPORT. The memory port (20_memory.md): what a word read answers, by what its two byte reads answer and by the
range its address falls in. -/

namespace Sys2Proof

namespace Machine

section WordRead
variable {s : State} {a : Nat}

/-- Two byte reads make the word read, the low byte at the lower address (20_memory.md R64). -/
theorem readWord_of_readByte {lo hi : Byte} (hlo : s.readByte a = .ok lo) (hhi : s.readByte (a + 1) = .ok hi) :
    s.readWord a = .ok (Word.ofBytes lo hi) := by
  obtain ⟨-, rfl⟩ := readByte_ok_iff.mp hlo
  obtain ⟨hlt, rfl⟩ := readByte_ok_iff.mp hhi
  exact readWord_of_lt hlt

/-- The lower address is the first that is out of range. -/
theorem readWord_of_ge (h : s.memSize ≤ a) : s.readWord a = .error (.outOfBounds a) := by
  obtain ⟨hlt, -⟩ | ⟨heq, -⟩ | ⟨-, hread⟩ := readWord_cases s a
  · omega
  · omega
  · exact hread

/-- At the last byte of memory the second address is the first that is out of range. -/
theorem readWord_of_succ_eq (h : a + 1 = s.memSize) : s.readWord a = .error (.outOfBounds (a + 1)) := by
  obtain ⟨hlt, -⟩ | ⟨-, hread⟩ | ⟨hge, -⟩ := readWord_cases s a
  · omega
  · exact hread
  · omega

end WordRead

/-- Settles O19: a word read answers by its two byte reads, and by the range of its address where one of them fails. -/
theorem wordReadIsLittleEndian : Obligations.WordReadIsLittleEndian := by
  refine fun s a => ⟨fun lo hi hlo hhi => ?littleEndian, readWord_of_ge, fun hlt hge => ?lastByte⟩
  case littleEndian => exact ⟨Word.ofBytes lo hi, readWord_of_readByte hlo hhi, ofBytes_toNat lo hi⟩
  case lastByte => exact readWord_of_succ_eq (by omega)

end Machine

end Sys2Proof
end

section
/-! SUPPORT. The encoding (30_encoding.md): the words of the encoder as numbers, what the decoder answers by the shape
of the mnemonic, and the step from a word whose low byte is no opcode. -/

namespace Sys2Proof

/-! The two bytes of a word as numbers (00_scope.md R15). -/

theorem Word.lo_eq_ofNat (w : Word) : Word.lo w = BitVec.ofNat 8 (w.toNat % 256) := by
  apply BitVec.eq_of_toNat_eq
  simp [Word.lo]

theorem Word.hi_eq_ofNat (w : Word) : Word.hi w = BitVec.ofNat 8 (w.toNat / 256) := by
  apply BitVec.eq_of_toNat_eq
  simp [Word.hi, Nat.shiftRight_eq_div_pow]

theorem signed8_bounds (b : Byte) : -128 ≤ signed8 b ∧ signed8 b ≤ 127 := by
  have hlo := BitVec.le_toInt b
  have hhi := BitVec.toInt_lt (x := b)
  unfold signed8
  omega

/-- Every number in the range of an offset is the value of one offset byte (30_encoding.md R98). -/
theorem signed8_ofInt {k : Int} (hlo : -128 ≤ k) (hhi : k ≤ 127) : signed8 (BitVec.ofInt 8 k) = k :=
  BitVec.toInt_ofInt_eq_self (by decide) (by omega) (by omega)

/-- An offset taken modulo 256 is its raw byte (30_encoding.md R98). -/
theorem signed8_mod_toNat (b : Byte) : (signed8 b % 256).toNat = b.toNat := by
  have h := b.isLt
  rw [signed8, BitVec.toInt_eq_toNat_cond]
  split <;> omega

section Encoder
variable (e : Encoding) (i : Instr)

theorem encode_toNat :
    (encode e i).toNat = (operandByte e.regidx i.operands).toNat * 256 + (e.opc.get i.mnemonic).toNat :=
  ofBytes_toNat ..

/-- Under a bijection onto 0..7 every register operand is in range. -/
theorem Instr.wellFormed_of_wf {g : RegMap} (hg : RegMap.wf g) : i.wellFormed g = true := by
  unfold Instr.wellFormed
  cases i.operands <;> simp [RegMap.get_le hg]

theorem encodeBytes_eq_ofNat :
    encodeBytes e i =
      [BitVec.ofNat 8 ((encode e i).toNat % 256), BitVec.ofNat 8 ((encode e i).toNat / 256)] := by
  rw [encodeBytes, Word.lo_eq_ofNat, Word.hi_eq_ofNat]

end Encoder

/-- Settles O2: the word is the operand byte over the opcode byte, and the operand byte is read off shape by shape. -/
theorem encodeFollowsTheFormulas : Obligations.EncodeFollowsTheFormulas := by
  rintro e ⟨-, hg⟩
  refine ⟨fun i => ⟨?word, i.wellFormed_of_wf hg, encodeBytes_eq_ofNat e i⟩, fun k => ⟨?inRange, ?value⟩⟩
  case word =>
    rw [encode_toNat]
    cases i.operands with
    | none => simp [operandByte]
    | imm8 imm => rfl
    | reg x => simp [operandByte, ofNibbles_toNat]
    | reg2 x y => simp only [operandByte, ofNibbles_toNat]; omega
    | off8 off => simp only [operandByte, signed8_mod_toNat]
  case inRange => exact fun ⟨hlo, hhi⟩ => ⟨BitVec.ofInt 8 k, signed8_ofInt hlo hhi⟩
  case value =>
    rintro ⟨off, rfl⟩
    exact signed8_bounds off

/-- A word with the opcode of `m` is decoded by the shape of `m`, where OPC is injective. -/
theorem decode_eq_of_get {e : Encoding} (ho : e.opc.wf) {w : Word} {m : Mnemonic} (h : e.opc.get m = Word.lo w) :
    decode e w = decodeOperands e.regidx w m :=
  decode_eq_of_find (h ▸ OpcMap.find_get ho m)

section Operands
variable {m : Mnemonic} (g : RegMap) (w : Word)

theorem decodeOperands_none (h : m.shape = .none) :
    ∃ i, decodeOperands g w m = .ok i ∧ i.mnemonic = m ∧ i.operands = .none := by
  cases m with
  | nop => exact ⟨.nop, rfl, rfl, rfl⟩
  | _ => cases h

theorem decodeOperands_imm8 (h : m.shape = .imm8) :
    ∃ i, decodeOperands g w m = .ok i ∧ i.mnemonic = m ∧ i.operands = .imm8 (Word.hi w) := by
  cases m with
  | push | signal => exact ⟨_, rfl, rfl, rfl⟩
  | _ => cases h

theorem decodeOperands_off8 (h : m.shape = .off8) :
    ∃ i, decodeOperands g w m = .ok i ∧ i.mnemonic = m ∧ i.operands = .off8 (Word.hi w) := by
  cases m with
  | jmp | je | jne => exact ⟨_, rfl, rfl, rfl⟩
  | _ => cases h

/-- A mnemonic of shape `REG` is decoded by its one field, into an instruction of that mnemonic on that register. -/
theorem decodeOperands_reg (h : m.shape = .reg) :
    ∃ k, decodeOperands g w m = decodeReg g w k ∧ ∀ x, (k x).mnemonic = m ∧ (k x).operands = .reg x := by
  cases m with
  | pop | pushReg | not => exact ⟨_, rfl, fun _ => ⟨rfl, rfl⟩⟩
  | _ => cases h

/-- A mnemonic of shape `REG2` is decoded by its two fields, into an instruction of that mnemonic on those registers,
the first field the first operand (30_encoding.md R101). -/
theorem decodeOperands_reg2 (h : m.shape = .reg2) :
    ∃ k, decodeOperands g w m = decodeReg2 g w k ∧
      ∀ x y, (k x y).mnemonic = m ∧ (k x y).operands = .reg2 x y := by
  cases m with
  | mov | add | sub | mul | div | shl | shr | and | or | xor | cmp | load | store =>
    exact ⟨_, rfl, fun _ _ => ⟨rfl, rfl⟩⟩
  | _ => cases h

end Operands

section Fields
variable {g : RegMap} {w : Word}

/-- A number above 7 names no register. -/
theorem RegMap.find_eq_none_of_gt (hg : RegMap.wf g) {n : Nibble} (h : 7 < n.toNat) : RegMap.find g n = none := by
  refine RegMap.find_eq_none_iff.mpr fun r hr => ?_
  have hle := RegMap.get_le hg r
  rw [hr] at hle
  omega

theorem decodeReg_error (hg : RegMap.wf g) (k : Reg → Instr) (h : 7 < (Word.r1 w).toNat) :
    decodeReg g w k = .error (.invalidRegister (Word.r1 w)) := by
  simp [decodeReg, RegMap.find_eq_none_of_gt hg h]

theorem decodeReg2_error_first (hg : RegMap.wf g) (k : Reg → Reg → Instr) (h : 7 < (Word.r1 w).toNat) :
    decodeReg2 g w k = .error (.invalidRegister (Word.r1 w)) := by
  simp [decodeReg2, RegMap.find_eq_none_of_gt hg h]

theorem decodeReg2_error_second (hg : RegMap.wf g) (k : Reg → Reg → Instr) (h1 : (Word.r1 w).toNat ≤ 7)
    (h2 : 7 < (Word.r2 w).toNat) : decodeReg2 g w k = .error (.invalidRegister (Word.r2 w)) := by
  obtain ⟨x, hx⟩ := RegMap.exists_get hg h1
  simp [decodeReg2, ← hx, RegMap.find_get hg, RegMap.find_eq_none_of_gt hg h2]

end Fields

/-- Settles O3: the opcode lookup gives the mnemonic, whose shape says which fields are read; a field up to 7 names a
register and one above 7 none. -/
theorem decodeFollowsTheAlgorithm : Obligations.DecodeFollowsTheAlgorithm := by
  rintro e w ⟨ho, hg⟩
  refine ⟨decode_eq_of_not_opcode, fun m hm => ?_⟩
  rw [decode_eq_of_get ho hm]
  cases hs : m.shape with
  | none => exact decodeOperands_none _ w hs
  | imm8 => exact decodeOperands_imm8 _ w hs
  | off8 => exact decodeOperands_off8 _ w hs
  | reg =>
    obtain ⟨k, hk, hinstr⟩ := decodeOperands_reg e.regidx w hs
    rw [hk]
    refine ⟨decodeReg_error hg k, fun h => ?_⟩
    obtain ⟨x, hx⟩ := RegMap.exists_get hg h
    obtain ⟨hmn, hop⟩ := hinstr x
    exact ⟨k x, x, decodeReg_of_get hg k hx, hmn, hop, hx⟩
  | reg2 =>
    obtain ⟨k, hk, hinstr⟩ := decodeOperands_reg2 e.regidx w hs
    rw [hk]
    refine ⟨decodeReg2_error_first hg k, decodeReg2_error_second hg k, fun h1 h2 => ?_⟩
    obtain ⟨x, hx⟩ := RegMap.exists_get hg h1
    obtain ⟨y, hy⟩ := RegMap.exists_get hg h2
    obtain ⟨hmn, hop⟩ := hinstr x y
    exact ⟨k x y, x, y, decodeReg2_of_get hg k hx hy, hmn, hop, hx, hy⟩

/-- The default opcodes are 0x00 to 0x15, in the order of the opcode table (30_encoding.md R100). -/
theorem OpcMap.default_opcodes : Mnemonic.all.map OpcMap.default.get = (List.range 22).map (BitVec.ofNat 8) := by
  decide

theorem OpcMap.default_not_opcode_iff (b : Byte) : (∀ m, OpcMap.default.get m ≠ b) ↔ 22 ≤ b.toNat := by
  have hmem : (∃ m, OpcMap.default.get m = b) ↔ b ∈ (List.range 22).map (BitVec.ofNat 8) := by
    simp [← OpcMap.default_opcodes]
  have hlt : b ∈ (List.range 22).map (BitVec.ofNat 8) ↔ b.toNat < 22 := by
    constructor
    · simp only [List.mem_map, List.mem_range]
      rintro ⟨n, hn, rfl⟩
      simp only [BitVec.toNat_ofNat]
      omega
    · exact fun h => List.mem_map.mpr ⟨b.toNat, List.mem_range.mpr h, BitVec.ofNat_toNat ..⟩
  rw [← not_lt, ← hlt, ← hmem, not_exists]

/-- The numbers below 256 that are no default opcode are those from 22 on. -/
theorem OpcMap.default_find_isNone {n : Nat} (hn : n < 256) :
    (OpcMap.default.find (BitVec.ofNat 8 n)).isNone = decide (22 ≤ n) := by
  rw [Bool.eq_iff_iff, Option.isNone_iff_eq_none, OpcMap.find_eq_none_iff, OpcMap.default_not_opcode_iff,
    BitVec.toNat_ofNat, Nat.mod_eq_of_lt hn, decide_eq_true_iff]

theorem OpcMap.default_not_opcode_count :
    ((List.range 256).filter (fun n => (OpcMap.default.find (BitVec.ofNat 8 n)).isNone)).length = 234 := by
  rw [List.filter_congr fun n hn => OpcMap.default_find_isNone (List.mem_range.mp hn),
    ← List.Ico.zero_bot, List.Ico.filter_le_of_le (Nat.zero_le 22)]
  exact List.Ico.length 22 256

namespace Machine

/-- A fetched word that does not decode has its fault latched after the PC advance (40_step_and_nop.md R132). -/
theorem step_of_decode_error {s : State} {w : Word} {f : CoreFault} (hrun : s.condition = .running)
    (hw : s.fetch = .ok w) (hd : decode s.cfg.enc w = .error f) : step s = .next (s.advancePc.raise f) := by
  obtain ⟨hfault, hhalted⟩ := condition_running_iff.mp hrun
  simp [step, hfault, hhalted, hw, hd]

/-- Settles O4: the step advances PC and raises the decoder's fault; the default opcodes are the bytes below 0x16. -/
theorem unknownOpcodeFaultsAfterTheAdvance : Obligations.UnknownOpcodeFaultsAfterTheAdvance := by
  refine ⟨fun s w hrun hw hop => ?step, OpcMap.default_not_opcode_iff, OpcMap.default_not_opcode_count⟩
  case step =>
    obtain ⟨hregs, hmem, hrest, -⟩ := setReg_onlyRegs s .pc (u16 ((s.reg .pc).toNat + 2))
    refine ⟨_, step_of_decode_error hrun hw (decode_eq_of_not_opcode hop), raise_fault .., ?pc, hregs, hmem, hrest⟩
    case pc => rw [raise_reg, advancePc_reg_pc, u16_toNat]

end Machine

end Sys2Proof
end

section
/-! SUPPORT. The step of a running sequencer (40_step_and_nop.md R132), an equation for each of its outcomes beside
`step_of_decode_error`, and `Nop`. -/

namespace Sys2Proof

/-- The byte 0 is the opcode of `Nop`, and the high byte is not read (30_encoding.md R104). -/
theorem decode_default_of_lo_eq_zero {w : Word} (h : Word.lo w = 0) : decode Encoding.default w = .ok .nop :=
  decode_eq_of_get (m := .nop) (by decide) h.symm

namespace Machine

open Sys2Proof.Stmt

section Step
variable {s : State}

/-- A failed fetch has its fault latched before the PC advance. -/
theorem step_of_fetch_error {f : CoreFault} (hrun : s.condition = .running) (hf : s.fetch = .error f) :
    step s = .next (s.raise f) := by
  obtain ⟨hfault, hhalted⟩ := condition_running_iff.mp hrun
  simp [step, hfault, hhalted, hf]

/-- The instruction that a step is about is executed after the PC advance. -/
theorem step_of_about {i : Instr} (h : About s i) : step s = exec i s.advancePc := by
  obtain ⟨hrun, w, hw, hd⟩ := h
  obtain ⟨hfault, hhalted⟩ := condition_running_iff.mp hrun
  simp [step, hfault, hhalted, hw, hd]

end Step

theorem exec_nop (s : State) : exec .nop s = .next s := rfl

/-- The frame of the PC advance (40_step_and_nop.md R132). -/
theorem advancePc_onlyRegs (s : State) : OnlyRegs [.pc] s s.advancePc := setReg_onlyRegs s .pc _

/-- Settles O7: an equation of the step for a failed fetch, a word that does not decode, and one that does. -/
theorem stepRunsTheDecodedInstruction : Obligations.StepRunsTheDecodedInstruction := by
  refine fun s hrun => ⟨rfl, fun f hf => ?fetchFault, fun w hw => ⟨fun f hd => ?decodeFault, fun i hd => ?execute⟩⟩
  case fetchFault => exact step_of_fetch_error hrun hf
  case decodeFault => exact step_of_decode_error hrun hw hd
  case execute => exact step_of_about ⟨hrun, w, hw, hd⟩

/-- Settles O35: a step about `Nop` ends in the state after the PC advance. -/
theorem nopOnlyAdvances : Obligations.NopOnlyAdvances := by
  refine ⟨⟨?encode, decode_default_of_lo_eq_zero ?low, rfl, rfl⟩, fun _ => decode_default_of_lo_eq_zero, exec_nop,
    fun s h => ⟨s.advancePc, ?step, ?pc, advancePc_onlyRegs s⟩⟩
  case encode => decide
  case low => decide
  case step => rw [step_of_about h, exec_nop]
  case pc => rw [advancePc_reg_pc, u16_toNat]

end Machine

end Sys2Proof
end

section
/-! SUPPORT. The round trip of an encoded instruction, which gives the decoding half of `Encoded` from the encoding
half, and `Mov` (42_mov_cmp.md R180). -/

namespace Sys2Proof

/-- An encoded instruction is decoded back by the fields of its shape, under every legal pair of maps. -/
theorem decode_encode {e : Encoding} (he : e.wf) (i : Instr) : decode e (encode e i) = .ok i := by
  obtain ⟨ho, hg⟩ := he
  rw [decode_eq_of_get ho (encode_lo e i).symm]
  cases i with
  | nop => rfl
  | push x | signal x | jmp x | je x | jne x =>
    simp [decodeOperands, Instr.mnemonic, Instr.operands, operandByte]
  | pop r | pushReg r | not r => exact decodeReg_of_get hg _ (r1_ofBytes_ofNibbles ..).symm
  | mov x y | add x y | sub x y | mul x y | div x y | shl x y | shr x y | and x y | or x y | xor x y | cmp x y
  | load x y | store x y =>
    exact decodeReg2_of_get hg _ (r1_ofBytes_ofNibbles ..).symm (r2_ofBytes_ofNibbles ..).symm

/-- The word that the default maps encode an instruction to is `Encoded`, with its mnemonic's opcode and shape. -/
theorem Stmt.encoded_of_encode {i : Instr} {w : Word} (h : encode Encoding.default i = w) :
    Stmt.Encoded i w (Encoding.default.opc.get i.mnemonic) i.mnemonic.shape :=
  ⟨h, h ▸ decode_encode Tests.witness_encoding_wf i, rfl, rfl⟩

namespace Machine

theorem exec_mov (dst src : Reg) (s : State) : exec (.mov dst src) s = .next (s.setReg dst (s.reg src)) := rfl

/-- Settles O36: `Mov` is one register write, of the value that the source held before it. -/
theorem movCopies : Obligations.MovCopies := by
  refine ⟨Stmt.encoded_of_encode ?encode, fun dst src s =>
    ⟨s.setReg dst (s.reg src), exec_mov dst src s, ?copied, setReg_onlyRegs s dst _⟩⟩
  case encode => decide
  case copied => exact reg_setReg_same ..

end Machine

end Sys2Proof
end

section
/-! SUPPORT. The frame of a raised fault and of a word store, the two courses of a push (43_stack.md R190 and R192) for
whatever instruction takes them, and `PushReg`. -/

namespace Sys2Proof.Machine

open Sys2Proof.Stmt

/-- An instruction that only latches a fault changes nothing else (60_exceptions.md R230). -/
theorem raisesOnly_of_exec {i : Instr} {s : State} {f : CoreFault} (h : exec i s = .next (s.raise f)) :
    RaisesOnly i s f :=
  ⟨s.raise f, h, raise_fault s f, fun r _ => raise_reg s f r, raise_readByte s f, rfl, rfl, rfl, rfl⟩

section StoredWordBytes
variable {s : State} {a : Nat} (v : Word)

theorem storedWord_readByte_lo (hm : s.mem.wf) (h : a < s.memSize) :
    (storedWord s a v).readByte a = .ok (Word.lo v) :=
  readByte_ok_iff.mpr ⟨h, by simp [storedWord_read s a v hm]⟩

theorem storedWord_readByte_hi (hm : s.mem.wf) (h : a + 1 < s.memSize) :
    (storedWord s a v).readByte (a + 1) = .ok (Word.hi v) :=
  readByte_ok_iff.mpr ⟨h, by simp [storedWord_read s a v hm]⟩

/-- The frame of a word store in memory (20_memory.md R65). -/
theorem storedWord_sameMemOutside (hm : s.mem.wf) : SameMemOutside a 2 s (storedWord s a v) := by
  intro x hx
  have hlo : x ≠ a := by omega
  have hhi : x ≠ a + 1 := by omega
  simp [State.readByte, storedWord_read s a v hm, hlo, hhi]

end StoredWordBytes

/-- An instruction that goes on to what a push of `v` answers, or latches the fault of that push, has the whole effect
of a push (43_stack.md R190 and R192). -/
theorem pushEffect_of_pushWord {i : Instr} {v : Word} {s : State} (hs : s.Inv)
    (hok : ∀ t, s.pushWord v = .ok t → exec i s = .next t)
    (herr : ∀ f, s.pushWord v = .error f → exec i s = .next (s.raise f)) : PushEffect i v s := by
  obtain ⟨-, hm, -⟩ := hs
  obtain ⟨hroom, hpush⟩ | ⟨hlast, hpush⟩ | ⟨hnone, hpush⟩ := pushWord_cases s v
  · refine ⟨fun _ => ⟨_, hok _ hpush, ?lo, ?hi, ?sp, ?regs, ?mem, ⟨rfl, rfl, rfl, rfl⟩, rfl⟩,
      fun _ => by omega, fun _ _ => by omega⟩
    case lo => exact storedWord_readByte_lo v hm (by omega)
    case hi => exact storedWord_readByte_hi v hm hroom
    case sp => rw [reg_setReg_same, u16_toNat, State.pushAddr]
    case regs => exact fun q hq => reg_setReg_ne _ _ _ _ (List.ne_of_not_mem_cons hq)
    case mem => exact storedWord_sameMemOutside v hm
  · exact ⟨fun _ => by omega, fun _ => by omega, fun _ _ => raisesOnly_of_exec (herr _ hpush)⟩
  · exact ⟨fun _ => by omega, fun _ => raisesOnly_of_exec (herr _ hpush), fun _ _ => by omega⟩

section PushReg
variable {r : Reg} {s : State}

theorem exec_pushReg_of_ok {t : State} (h : s.pushWord (s.reg r) = .ok t) : exec (.pushReg r) s = .next t := by
  simp [exec, execPushReg, h]

theorem exec_pushReg_of_error {f : CoreFault} (h : s.pushWord (s.reg r) = .error f) :
    exec (.pushReg r) s = .next (s.raise f) := by
  simp [exec, execPushReg, h]

end PushReg

/-- Settles O39: `PushReg` takes the two courses of a push of the value that its register holds before SP moves. -/
theorem pushRegStoresTheRegister : Obligations.PushRegStoresTheRegister := by
  refine ⟨Stmt.encoded_of_encode ?encode, fun r s hs => ?effect⟩
  case encode => decide
  case effect => exact pushEffect_of_pushWord hs (fun _ => exec_pushReg_of_ok) (fun _ => exec_pushReg_of_error)

end Sys2Proof.Machine
end

section
/-! SUPPORT. The branch target (44_branch.md R200) as a number, and as a displacement from the branch's own address,
and `Jmp` at the level of `exec` and of the step. -/

namespace Sys2Proof.Machine

open Sys2Proof.Stmt

theorem branchTarget_toNat (next : Word) (off : Byte) :
    ((branchTarget next off).toNat : Int) = ((next.toNat : Int) + 2 * signed8 off) % 65536 := by
  rw [branchTarget, u16Int_toNat, Int.toNat_of_nonneg (Int.emod_nonneg _ (by decide))]

/-- From a branch at the address `a`, its target lies one instruction more than the offset away (44_branch.md R200). -/
theorem branchTarget_next (a : Word) (off : Byte) :
    branchTarget (u16 (a.toNat + 2)) off = a + u16Int (2 * (signed8 off + 1)) := by
  apply BitVec.eq_of_toNat_eq
  rw [branchTarget, BitVec.toNat_add, u16Int_toNat, u16Int_toNat, u16_toNat]
  omega

theorem exec_jmp (off : Byte) (s : State) :
    exec (.jmp off) s = .next (s.setReg .pc (branchTarget (s.reg .pc) off)) := rfl

/-- A step about `Jmp` moves PC by its offset plus one, counted in instructions. -/
theorem step_jmp_reg_pc {s t : State} {off : Byte} (h : About s (.jmp off)) (ht : step s = .next t) :
    t.reg .pc = s.reg .pc + u16Int (2 * (signed8 off + 1)) := by
  rw [step_of_about h, exec_jmp] at ht
  cases ht
  rw [reg_setReg_same, advancePc_reg_pc, branchTarget_next]

/-- Settles O42: `Jmp` is one write of PC, and the displacements of the offsets 0, -1 and -2 are 2, 0 and -2. -/
theorem jmpAddsTwiceTheOffset : Obligations.JmpAddsTwiceTheOffset := by
  refine ⟨Stmt.encoded_of_encode ?encode, fun off s => ⟨_, exec_jmp off s, ?target, setReg_onlyRegs s .pc _⟩,
    fun s t h ht => ?nextInstr, fun s t h ht => ?itself, fun s t h ht => ?instrBefore⟩
  case encode => decide
  case target => rw [reg_setReg_same, branchTarget_toNat]
  case nextInstr =>
    have displacement : u16Int (2 * (signed8 0 + 1)) = 2 := by decide
    rw [step_jmp_reg_pc h ht, displacement]
  case itself =>
    have displacement : u16Int (2 * (signed8 0xFF + 1)) = 0 := by decide
    rw [step_jmp_reg_pc h ht, displacement, add_zero]
  case instrBefore =>
    have displacement : u16Int (2 * (signed8 0xFE + 1)) = -2 := by decide
    rw [step_jmp_reg_pc h ht, displacement, BitVec.sub_eq_add_neg]

end Sys2Proof.Machine
end

section
/-! SUPPORT. What a word write answers by the range its address falls in (20_memory.md R65), the two courses of a
register-indirect access, and `Load` and `Store` (45_load_store.md). -/

namespace Sys2Proof.Machine

open Sys2Proof.Stmt

section WordWrite
variable {s : State} {a : Nat} (v : Word)

theorem writeWord_of_lt (h : a + 1 < s.memSize) : s.writeWord a v = .ok (storedWord s a v) := by
  obtain ⟨-, hwrite⟩ | ⟨heq, -⟩ | ⟨hge, -⟩ := writeWord_cases s a v
  · exact hwrite
  · omega
  · omega

/-- The lower address is the first that is out of range. -/
theorem writeWord_of_ge (h : s.memSize ≤ a) : s.writeWord a v = .error (.outOfBounds a) := by
  obtain ⟨hlt, -⟩ | ⟨heq, -⟩ | ⟨-, hwrite⟩ := writeWord_cases s a v
  · omega
  · omega
  · exact hwrite

/-- At the last byte of memory the second address is the first that is out of range. -/
theorem writeWord_of_succ_eq (h : a + 1 = s.memSize) : s.writeWord a v = .error (.outOfBounds (a + 1)) := by
  obtain ⟨hlt, -⟩ | ⟨-, hwrite⟩ | ⟨hge, -⟩ := writeWord_cases s a v
  · omega
  · exact hwrite
  · omega

end WordWrite

section Load
variable {dst addr : Reg} {s : State}

theorem exec_load_of_ok {v : Word} (h : s.readWord (s.regAddr addr) = .ok v) :
    exec (.load dst addr) s = .next (s.setReg dst v) := by
  simp [exec, execLoad, h]

/-- A load whose read fails latches the fault of the read and does not write its destination. -/
theorem load_raisesOnly {f : CoreFault} (h : s.readWord (s.regAddr addr) = .error f) :
    RaisesOnly (.load dst addr) s f :=
  raisesOnly_of_exec (by simp [exec, execLoad, h])

end Load

/-- Settles O44: `Load` takes the two courses of the word read at the address in its second register, and on the
successful one it is one write of its destination. -/
theorem loadReadsTheAddressedWord : Obligations.LoadReadsTheAddressedWord := by
  refine ⟨Stmt.encoded_of_encode ?encode, fun dst addr s =>
    ⟨fun lo hi hlo hhi => ?loaded, fun hge => ?outside, fun hlt hge => ?lastByte⟩⟩
  case encode => decide
  case loaded =>
    refine ⟨_, exec_load_of_ok (readWord_of_readByte hlo hhi), ?value, setReg_onlyRegs s dst _⟩
    rw [reg_setReg_same, ofBytes_toNat]
  case outside => exact load_raisesOnly (readWord_of_ge hge)
  case lastByte =>
    have hlast : (s.reg addr).toNat + 1 = s.memSize := by omega
    exact load_raisesOnly (readWord_of_succ_eq hlast)

section Store
variable {value addr : Reg} {s : State}

theorem exec_store_of_ok {t : State} (h : s.writeWord (s.regAddr addr) (s.reg value) = .ok t) :
    exec (.store value addr) s = .next t := by
  simp [exec, execStore, h]

/-- A store whose write fails latches the fault of the write and stores no byte. -/
theorem store_raisesOnly {f : CoreFault} (h : s.writeWord (s.regAddr addr) (s.reg value) = .error f) :
    RaisesOnly (.store value addr) s f :=
  raisesOnly_of_exec (by simp [exec, execStore, h])

end Store

/-- Settles O45: `Store` takes the two courses of the word write at the address in its second register, and on the
successful one it ends in `storedWord`, which touches those two bytes of memory alone. -/
theorem storeWritesTheAddressedWord : Obligations.StoreWritesTheAddressedWord := by
  refine ⟨Stmt.encoded_of_encode ?encode, fun value addr s ⟨_, hm, _⟩ =>
    ⟨fun hlt => ?stored, fun hge => ?outside, fun hlt hge => ?lastByte⟩⟩
  case encode => decide
  case stored =>
    refine ⟨_, exec_store_of_ok (writeWord_of_lt _ hlt), storedWord_readByte_lo _ hm (by omega),
      storedWord_readByte_hi _ hm hlt, storedWord_sameMemOutside _ hm, ?regs, ⟨rfl, rfl, rfl, rfl⟩, rfl⟩
    exact fun r _ => storedWord_reg s _ _ r
  case outside => exact store_raisesOnly (writeWord_of_ge _ hge)
  case lastByte =>
    have hlast : s.regAddr addr + 1 = s.memSize := by omega
    exact store_raisesOnly (writeWord_of_succ_eq _ hlast)

end Sys2Proof.Machine
end

section
/-! SUPPORT. The other half of the round trip (30_encoding.md section 1): what the unused bits of a word are by its
fields, and the word that an accepted word's instruction is encoded to; and the bits the decoder does not read. -/

namespace Sys2Proof

theorem Word.eq_iff_lo_hi {v w : Word} : v = w ↔ Word.lo v = Word.lo w ∧ Word.hi v = Word.hi w := by
  refine ⟨by rintro rfl; exact ⟨rfl, rfl⟩, fun ⟨hlo, hhi⟩ => ?_⟩
  rw [← ofBytes_lo_hi v, ← ofBytes_lo_hi w, hlo, hhi]

theorem Byte.ofNibbles_inj {x y x' y' : Nibble} :
    Byte.ofNibbles x y = Byte.ofNibbles x' y' ↔ x = x' ∧ y = y' := by
  refine ⟨fun h => ⟨?first, ?second⟩, by rintro ⟨rfl, rfl⟩; rfl⟩
  case first => rw [← r1_ofBytes_ofNibbles 0 x y, h, r1_ofBytes_ofNibbles]
  case second => rw [← r2_ofBytes_ofNibbles 0 x y, h, r2_ofBytes_ofNibbles]

theorem ofBytes_and (lo hi lo' hi' : Byte) :
    Word.ofBytes lo hi &&& Word.ofBytes lo' hi' = Word.ofBytes (lo &&& lo') (hi &&& hi') :=
  BitVec.and_append

theorem ofNibbles_and (x y x' y' : Nibble) :
    Byte.ofNibbles x y &&& Byte.ofNibbles x' y' = Byte.ofNibbles (x &&& x') (y &&& y') :=
  BitVec.and_append

/-- The unused bits of a `NONE` word are its high byte (30_encoding.md R92). -/
theorem unusedBits_none_iff (w : Word) : w &&& Shape.none.unusedBits = 0 ↔ Word.hi w = 0 := by
  have mask : Shape.none.unusedBits = Word.ofBytes 0 (BitVec.allOnes 8) := by decide
  have zero : (0 : Word) = Word.ofBytes 0 0 := by decide
  rw [← ofBytes_lo_hi w, mask, ofBytes_and, BitVec.and_allOnes, zero, Word.eq_iff_lo_hi]
  simp

/-- The unused bits of a `REG` word are its second register field (30_encoding.md R94). -/
theorem unusedBits_reg_iff (w : Word) : w &&& Shape.reg.unusedBits = 0 ↔ Word.r2 w = 0 := by
  have mask : Shape.reg.unusedBits = Word.ofBytes 0 (Byte.ofNibbles 0 (BitVec.allOnes 4)) := by decide
  have zero : (0 : Word) = Word.ofBytes 0 (Byte.ofNibbles 0 0) := by decide
  rw [← ofBytes_lo_hi w, ← ofNibbles_r1_r2 w, mask, ofBytes_and, ofNibbles_and, BitVec.and_allOnes, zero,
    Word.eq_iff_lo_hi]
  simp [Byte.ofNibbles_inj]

/-- An accepted word whose instruction has its opcode is the encoded word exactly when the operand bytes agree. -/
theorem encode_eq_iff {e : Encoding} {w : Word} {i : Instr} (h : e.opc.get i.mnemonic = Word.lo w) :
    encode e i = w ↔ operandByte e.regidx i.operands = Word.hi w := by
  rw [Word.eq_iff_lo_hi, encode_lo, encode_hi]
  exact and_iff_right h

/-- The instruction of an accepted word has the word's opcode, and its operands are the fields that its shape uses. -/
theorem fields_of_decode {e : Encoding} {w : Word} {i : Instr} (h : decode e w = .ok i) :
    e.opc.get i.mnemonic = Word.lo w ∧
    match i.mnemonic.shape with
    | .none => i.operands = .none
    | .imm8 => i.operands = .imm8 (Word.hi w)
    | .off8 => i.operands = .off8 (Word.hi w)
    | .reg => ∃ x, i.operands = .reg x ∧ e.regidx.get x = Word.r1 w
    | .reg2 => ∃ x y, i.operands = .reg2 x y ∧ e.regidx.get x = Word.r1 w ∧ e.regidx.get y = Word.r2 w := by
  obtain ⟨m, hm, hd⟩ := opcode_of_decode h
  cases hs : m.shape with
  | none =>
    obtain ⟨j, hj, rfl, hop⟩ := decodeOperands_none e.regidx w hs
    obtain rfl : j = i := by simpa [hj] using hd
    simp [hm, hs, hop]
  | imm8 =>
    obtain ⟨j, hj, rfl, hop⟩ := decodeOperands_imm8 e.regidx w hs
    obtain rfl : j = i := by simpa [hj] using hd
    simp [hm, hs, hop]
  | off8 =>
    obtain ⟨j, hj, rfl, hop⟩ := decodeOperands_off8 e.regidx w hs
    obtain rfl : j = i := by simpa [hj] using hd
    simp [hm, hs, hop]
  | reg =>
    obtain ⟨k, hk, hinstr⟩ := decodeOperands_reg e.regidx w hs
    obtain ⟨x, hx, rfl⟩ := decodeReg_ok (hk ▸ hd)
    obtain ⟨rfl, hop⟩ := hinstr x
    simp [hm, hs, hop, hx]
  | reg2 =>
    obtain ⟨k, hk, hinstr⟩ := decodeOperands_reg2 e.regidx w hs
    obtain ⟨x, y, hx, hy, rfl⟩ := decodeReg2_ok (hk ▸ hd)
    obtain ⟨rfl, hop⟩ := hinstr x y
    simp [hm, hs, hop, hx, hy]

/-- Encoding a decoded word gives the word back exactly when its unused bits are 0 (30_encoding.md section 1). -/
theorem encode_of_decode {e : Encoding} {w : Word} {i : Instr} (h : decode e w = .ok i) :
    encode e i = w ↔ w &&& i.mnemonic.shape.unusedBits = 0 := by
  obtain ⟨hopc, hop⟩ := fields_of_decode h
  rw [encode_eq_iff hopc]
  cases hs : i.mnemonic.shape with
  | none =>
    simp only [hs] at hop
    rw [hop, unusedBits_none_iff]
    exact eq_comm
  | imm8 | off8 =>
    simp only [hs] at hop
    simp [hop, operandByte, Shape.unusedBits]
  | reg =>
    simp only [hs] at hop
    obtain ⟨x, hop, hx⟩ := hop
    rw [hop, unusedBits_reg_iff, operandByte, hx, ← ofNibbles_r1_r2, Byte.ofNibbles_inj]
    exact ⟨fun h => h.2.symm, fun h => ⟨rfl, h.symm⟩⟩
  | reg2 =>
    simp only [hs] at hop
    obtain ⟨x, y, hop, hx, hy⟩ := hop
    simp [hop, operandByte, hx, hy, ofNibbles_r1_r2, Shape.unusedBits]

/-- Settles O1: `decode_encode` one way; the other way the operand byte is compared with the fields that the shape
uses, and what is left over are the unused bits. -/
theorem decodeInvertsEncode : Obligations.DecodeInvertsEncode :=
  fun _ he => ⟨decode_encode he, fun _ _ => encode_of_decode⟩

/-- Settles O5: the opcode fixes the mnemonic, and the shapes `NONE` and `REG` read no other field of the word, or the
first register field alone. -/
theorem unusedBitsAreIgnored : Obligations.UnusedBitsAreIgnored := by
  rintro e v w m ⟨ho, -⟩ hv hlo
  rw [decode_eq_of_get ho hv, decode_eq_of_get ho (hv.trans hlo)]
  refine ⟨fun hs => ?none, fun hs hr1 => ?reg⟩
  case none =>
    cases m with
    | nop => rfl
    | _ => cases hs
  case reg =>
    cases m with
    | pop | pushReg | not => simp only [decodeOperands, decodeReg, hr1]
    | _ => cases hs

/-- Settles O6: the decoder evaluated on the words of the vectors V1. -/
theorem specWordsDecode : Obligations.SpecWordsDecode := by
  unfold Obligations.SpecWordsDecode
  decide

end Sys2Proof
end

section
/-! SUPPORT. What `exec` answers for each instruction, one equation per course of its meaning: `exec_nop`, `exec_mov`,
`exec_jmp` and the successful courses of `PushReg`, `Load` and `Store` stand above, the others here. The ten
instructions of NUM share one equation (41_arith_logic.md R151). -/

namespace Sys2Proof.Machine

open Sys2Proof.Stmt

/-- A case split over the instructions in which the ten instructions of NUM are one case. -/
theorem casesOnArith {motive : Instr → Prop}
    (arith : ∀ op dst src, motive (arithInstr op dst src)) (nop : motive .nop)
    (mov : ∀ dst src, motive (.mov dst src)) (cmp : ∀ left right, motive (.cmp left right))
    (push : ∀ imm, motive (.push imm)) (pushReg : ∀ r, motive (.pushReg r)) (pop : ∀ r, motive (.pop r))
    (jmp : ∀ off, motive (.jmp off)) (je : ∀ off, motive (.je off)) (jne : ∀ off, motive (.jne off))
    (load : ∀ dst addr, motive (.load dst addr)) (store : ∀ value addr, motive (.store value addr))
    (signal : ∀ id, motive (.signal id)) (i : Instr) : motive i := by
  cases i with
  | nop => exact nop
  | push imm => exact push imm
  | pop r => exact pop r
  | pushReg r => exact pushReg r
  | mov dst src => exact mov dst src
  | add dst src => exact arith .add dst src
  | sub dst src => exact arith .sub dst src
  | mul dst src => exact arith .mul dst src
  | div dst src => exact arith .div dst src
  | shl dst src => exact arith .shl dst src
  | shr dst src => exact arith .shr dst src
  | and dst src => exact arith .and dst src
  | or dst src => exact arith .or dst src
  | xor dst src => exact arith .xor dst src
  | not r => exact arith .not r r
  | cmp left right => exact cmp left right
  | jmp off => exact jmp off
  | je off => exact je off
  | jne off => exact jne off
  | load dst addr => exact load dst addr
  | store value addr => exact store value addr
  | signal id => exact signal id

@[simp] theorem dest_arithInstr (op : ArithOp) (dst src : Reg) : dest (arithInstr op dst src) = some dst := by
  cases op <;> rfl

theorem mnemonic_arithInstr (op : ArithOp) (dst src : Reg) :
    (arithInstr op dst src).mnemonic ∈
      [Mnemonic.add, .sub, .mul, .div, .shl, .shr, .and, .or, .xor, .not, .cmp] := by
  cases op <;> simp [arithInstr, Instr.mnemonic]

/-- The state after a push that succeeds (43_stack.md R190). -/
def pushedWord (s : State) (v : Word) : State :=
  (storedWord s s.pushAddr v).setReg .sp (u16 (s.pushAddr + 2))

theorem pushWord_of_lt {s : State} {v : Word} (room : s.pushAddr + 1 < s.memSize) :
    s.pushWord v = .ok (pushedWord s v) := by
  rw [State.pushWord, writeWord_of_lt v room]
  rfl

section Equations
variable {s : State}

/-- The common step of arithmetic and logic, for a divisor other than 0 (41_arith_logic.md R151). -/
theorem exec_arith {op : ArithOp} {dst src : Reg} (h : op ≠ .div ∨ s.reg src ≠ 0) :
    exec (arithInstr op dst src) s = .next (s.writeResult dst (numResult op dst src s)) := by
  cases op with
  | div => exact if_neg (h.resolve_left (· rfl))
  | _ => rfl

theorem exec_div_zero {dst src : Reg} (h : s.reg src = 0) :
    exec (.div dst src) s = .next (s.raise .divisionByZero) := by
  simp [exec, execDiv, h]

theorem exec_cmp (left right : Reg) :
    exec (.cmp left right) s =
      .next (s.setReg .fl (compareFlags s.cfg.flbit (s.reg .fl) (s.reg left) (s.reg right))) := rfl

theorem exec_push_of_ok {imm : Byte} {t : State} (h : s.pushWord (immWord imm) = .ok t) :
    exec (.push imm) s = .next t := by
  simp [exec, execPush, h]

theorem exec_push_of_error {imm : Byte} {f : CoreFault} (h : s.pushWord (immWord imm) = .error f) :
    exec (.push imm) s = .next (s.raise f) := by
  simp [exec, execPush, h]

theorem exec_pop_of_lt {r : Reg} (h : (s.reg .sp).toNat < 2) :
    exec (.pop r) s = .next (s.raise .stackUnderflow) := by
  simp [exec, execPop, State.popUnderflows, h]

section Pop
variable {r : Reg} (h : 2 ≤ (s.reg .sp).toNat)
include h

theorem exec_pop_of_ok {v : Word} (hv : s.readWord s.popAddr = .ok v) :
    exec (.pop r) s = .next (s.dropWord.setReg r v) := by
  have hread : s.dropWord.readWord s.popAddr = .ok v := hv
  simp [exec, execPop, State.popUnderflows, not_lt.mpr h, hread]

theorem exec_pop_of_error {f : CoreFault} (hf : s.readWord s.popAddr = .error f) :
    exec (.pop r) s = .next (s.dropWord.raise f) := by
  have hread : s.dropWord.readWord s.popAddr = .error f := hf
  simp [exec, execPop, State.popUnderflows, not_lt.mpr h, hread]

/-- SP after the first half of a pop that does not underflow (43_stack.md R194). -/
theorem dropWord_reg_sp_toNat : (s.dropWord.reg .sp).toNat + 2 = (s.reg .sp).toNat := by
  have hlt := (s.reg .sp).isLt
  rw [dropWord_reg_sp, u16_toNat, State.popAddr]
  omega

end Pop

theorem exec_je (off : Byte) :
    exec (.je off) s =
      .next (if s.flag .compare then s.setReg .pc (branchTarget (s.reg .pc) off) else s) := by
  cases h : s.flag .compare <;> simp [exec, execJe, h]

theorem exec_jne (off : Byte) :
    exec (.jne off) s =
      .next (if s.flag .compare then s else s.setReg .pc (branchTarget (s.reg .pc) off)) := by
  cases h : s.flag .compare <;> simp [exec, execJne, h]

theorem exec_load_of_error {dst addr : Reg} {f : CoreFault} (h : s.readWord (s.regAddr addr) = .error f) :
    exec (.load dst addr) s = .next (s.raise f) := by
  simp [exec, execLoad, h]

theorem exec_store_of_error {value addr : Reg} {f : CoreFault}
    (h : s.writeWord (s.regAddr addr) (s.reg value) = .error f) :
    exec (.store value addr) s = .next (s.raise f) := by
  simp [exec, execStore, h]

theorem exec_signal_of_none {id : Byte} (h : s.handler id = none) :
    exec (.signal id) s = .next (s.raise (.unknownSignal id)) := by
  simp [exec, execSignal, h]

theorem exec_signal_of_some {id : Byte} {hd : Handler} (h : s.handler id = some hd) :
    exec (.signal id) s = .next (s.callHandler id hd) := by
  simp [exec, execSignal, h]

end Equations

/-! Whether a conditional branch is taken, by the Compare flag (44_branch.md R202 and R203). -/

section Taken
variable (off : Byte) (s : State)

@[simp] theorem taken_jmp : Taken (.jmp off) s := .inl ⟨off, rfl⟩

@[simp] theorem taken_je_iff : Taken (.je off) s ↔ s.flag .compare = true := by simp [Taken]

@[simp] theorem taken_jne_iff : Taken (.jne off) s ↔ s.flag .compare = false := by simp [Taken]

end Taken

end Sys2Proof.Machine
end

section
/-! SUPPORT. Everything an instruction and a step can do, said once: `Effect` lists the ways in which an instruction goes
on, `exec_effect` says that it always goes on in one of them, and `step_cases` does the same for the step. The rules
about every instruction and every step follow by a case split. -/

namespace Sys2Proof.Machine

open Sys2Proof.Stmt

/-- The instruction pushes `v`: the immediate of `Push`, or the register of `PushReg` (43_stack.md R190 and R192). -/
def Pushes (i : Instr) (v : Word) (s : State) : Prop :=
  (∃ imm, i = .push imm ∧ v = immWord imm) ∨ (∃ r, i = .pushReg r ∧ v = s.reg r)

theorem Pushes.mnemonic {i : Instr} {v : Word} {s : State} (h : Pushes i v s) :
    i.mnemonic ∈ [Mnemonic.push, .pushReg] := by
  obtain ⟨imm, rfl, -⟩ | ⟨r, rfl, -⟩ := h <;> simp [Instr.mnemonic]

/-- Executing an instruction in the first state can end in the second, in one of these ways. Of an address that is
outside memory nothing more is said. -/
inductive Effect (s : State) : Instr → State → Prop where
  | nop : Effect s .nop s
  | mov (dst src : Reg) : Effect s (.mov dst src) (s.setReg dst (s.reg src))
  | arith (op : ArithOp) (dst src : Reg) (hop : op ≠ .div ∨ s.reg src ≠ 0) :
      Effect s (arithInstr op dst src) (s.writeResult dst (numResult op dst src s))
  | divByZero (dst src : Reg) (hsrc : s.reg src = 0) : Effect s (.div dst src) (s.raise .divisionByZero)
  | cmp (left right : Reg) :
      Effect s (.cmp left right)
        (s.setReg .fl (compareFlags s.cfg.flbit (s.reg .fl) (s.reg left) (s.reg right)))
  | pushed {i : Instr} (v : Word) (hi : Pushes i v s) (room : s.pushAddr + 1 < s.memSize) :
      Effect s i (pushedWord s v)
  | popped (r : Reg) (v : Word) (deep : 2 ≤ (s.reg .sp).toNat) (hv : s.readWord s.popAddr = .ok v) :
      Effect s (.pop r) (s.dropWord.setReg r v)
  | underflow (r : Reg) (shallow : (s.reg .sp).toNat < 2) : Effect s (.pop r) (s.raise .stackUnderflow)
  | popOutside (r : Reg) (a : Nat) (deep : 2 ≤ (s.reg .sp).toNat) (ha : s.memSize ≤ a) :
      Effect s (.pop r) (s.dropWord.raise (.outOfBounds a))
  | branch {i : Instr} (off : Byte) (hi : i ∈ [Instr.jmp off, .je off, .jne off]) (taken : Taken i s) :
      Effect s i (s.setReg .pc (branchTarget (s.reg .pc) off))
  | noBranch {i : Instr} (off : Byte) (hi : i ∈ [Instr.je off, .jne off]) (notTaken : ¬ Taken i s) : Effect s i s
  | loaded (dst addr : Reg) (v : Word) (hv : s.readWord (s.regAddr addr) = .ok v) :
      Effect s (.load dst addr) (s.setReg dst v)
  | stored (value addr : Reg) (room : s.regAddr addr + 1 < s.memSize) :
      Effect s (.store value addr) (storedWord s (s.regAddr addr) (s.reg value))
  | outside {i : Instr} (a : Nat) (hi : i.mnemonic ∈ [Mnemonic.push, .pushReg, .load, .store])
      (ha : s.memSize ≤ a) : Effect s i (s.raise (.outOfBounds a))
  | unknownSignal (id : Byte) (hid : s.handler id = none) :
      Effect s (.signal id) (s.raise (.unknownSignal id))
  | handled (id : Byte) (hd : Handler) (hid : s.handler id = some hd) :
      Effect s (.signal id) (s.callHandler id hd)

section ExecEffect
variable {s : State}

/-- An instruction that goes on to what a push answers, or latches the fault of that push, has one of its effects. -/
theorem exec_effect_of_pushWord {i : Instr} {v : Word} (hi : Pushes i v s)
    (hok : ∀ t, s.pushWord v = .ok t → exec i s = .next t)
    (herr : ∀ f, s.pushWord v = .error f → exec i s = .next (s.raise f)) :
    ∃ t, exec i s = .next t ∧ Effect s i t := by
  have hi' : i.mnemonic ∈ [Mnemonic.push, .pushReg, .load, .store] :=
    List.mem_append_left [Mnemonic.load, .store] hi.mnemonic
  obtain ⟨room, hpush⟩ | ⟨hlast, hpush⟩ | ⟨hnone, hpush⟩ := pushWord_cases s v
  · exact ⟨_, hok _ hpush, .pushed v hi room⟩
  · exact ⟨_, herr _ hpush, .outside _ hi' hlast.ge⟩
  · exact ⟨_, herr _ hpush, .outside _ hi' hnone⟩

theorem exec_effect_pop (r : Reg) : ∃ t, exec (.pop r) s = .next t ∧ Effect s (.pop r) t := by
  rcases Nat.lt_or_ge (s.reg .sp).toNat 2 with hlt | deep
  · exact ⟨_, exec_pop_of_lt hlt, .underflow r hlt⟩
  · obtain ⟨-, hread⟩ | ⟨hlast, hread⟩ | ⟨hnone, hread⟩ := readWord_cases s s.popAddr
    · exact ⟨_, exec_pop_of_ok deep hread, .popped r _ deep hread⟩
    · exact ⟨_, exec_pop_of_error deep hread, .popOutside r _ deep hlast.ge⟩
    · exact ⟨_, exec_pop_of_error deep hread, .popOutside r _ deep hnone⟩

theorem exec_effect_load (dst addr : Reg) :
    ∃ t, exec (.load dst addr) s = .next t ∧ Effect s (.load dst addr) t := by
  have hi : (Instr.load dst addr).mnemonic ∈ [Mnemonic.push, .pushReg, .load, .store] := by
    simp [Instr.mnemonic]
  obtain ⟨-, hread⟩ | ⟨hlast, hread⟩ | ⟨hnone, hread⟩ := readWord_cases s (s.regAddr addr)
  · exact ⟨_, exec_load_of_ok hread, .loaded dst addr _ hread⟩
  · exact ⟨_, exec_load_of_error hread, .outside _ hi hlast.ge⟩
  · exact ⟨_, exec_load_of_error hread, .outside _ hi hnone⟩

theorem exec_effect_store (value addr : Reg) :
    ∃ t, exec (.store value addr) s = .next t ∧ Effect s (.store value addr) t := by
  have hi : (Instr.store value addr).mnemonic ∈ [Mnemonic.push, .pushReg, .load, .store] := by
    simp [Instr.mnemonic]
  obtain ⟨room, hwrite⟩ | ⟨hlast, hwrite⟩ | ⟨hnone, hwrite⟩ := writeWord_cases s (s.regAddr addr) (s.reg value)
  · exact ⟨_, exec_store_of_ok hwrite, .stored value addr room⟩
  · exact ⟨_, exec_store_of_error hwrite, .outside _ hi hlast.ge⟩
  · exact ⟨_, exec_store_of_error hwrite, .outside _ hi hnone⟩

/-- Every instruction goes on from every state, in one of the listed ways. -/
theorem exec_effect (i : Instr) : ∃ t, exec i s = .next t ∧ Effect s i t := by
  cases i using casesOnArith with
  | arith op dst src =>
    by_cases h : op = .div ∧ s.reg src = 0
    · obtain ⟨rfl, hsrc⟩ := h
      exact ⟨_, exec_div_zero hsrc, .divByZero dst src hsrc⟩
    · exact ⟨_, exec_arith (not_and_or.mp h), .arith op dst src (not_and_or.mp h)⟩
  | nop => exact ⟨_, exec_nop s, .nop⟩
  | mov dst src => exact ⟨_, exec_mov dst src s, .mov dst src⟩
  | cmp left right => exact ⟨_, exec_cmp left right, .cmp left right⟩
  | push imm =>
    exact exec_effect_of_pushWord (.inl ⟨imm, rfl, rfl⟩) (fun _ => exec_push_of_ok) (fun _ => exec_push_of_error)
  | pushReg r =>
    exact exec_effect_of_pushWord (.inr ⟨r, rfl, rfl⟩) (fun _ => exec_pushReg_of_ok) (fun _ => exec_pushReg_of_error)
  | pop r => exact exec_effect_pop r
  | jmp off => exact ⟨_, exec_jmp off s, .branch off (by simp) (taken_jmp off s)⟩
  | je off =>
    refine ⟨_, exec_je off, ?_⟩
    split
    · next h => exact .branch off (by simp) (by simp [h])
    · next h => exact .noBranch off (by simp) (by simp [h])
  | jne off =>
    refine ⟨_, exec_jne off, ?_⟩
    split
    · next h => exact .noBranch off (by simp) (by simp [h])
    · next h => exact .branch off (by simp) (by simp [h])
  | load dst addr => exact exec_effect_load dst addr
  | store value addr => exact exec_effect_store value addr
  | signal id =>
    cases hid : s.handler id with
    | none => exact ⟨_, exec_signal_of_none hid, .unknownSignal id hid⟩
    | some hd => exact ⟨_, exec_signal_of_some hid, .handled id hd hid⟩

/-- What an instruction goes on to is one of its effects. -/
theorem effect_of_exec {i : Instr} {t : State} (h : exec i s = .next t) : Effect s i t := by
  obtain ⟨u, hu, heffect⟩ := exec_effect (s := s) i
  rw [h] at hu
  cases hu
  exact heffect

end ExecEffect

/-! ### The step -/

section StepCases
variable {s t : State}

theorem step_of_not_running (h : s.condition ≠ .running) : ∃ r, step s = .fault r := by
  unfold step
  cases hf : s.fault with
  | some f => exact ⟨_, rfl⟩
  | none =>
    cases hh : s.halted with
    | true => exact ⟨_, rfl⟩
    | false => exact absurd (condition_running_iff.mpr ⟨hf, hh⟩) h

theorem condition_of_step (h : step s = .next t) : s.condition = .running := by
  by_contra hrun
  obtain ⟨r, hr⟩ := step_of_not_running hrun
  rw [hr] at h
  cases h

/-- Everything a running sequencer does in one step (40_step_and_nop.md R132 and R133). -/
theorem step_of_running (hrun : s.condition = .running) :
    (∃ f, s.fetch = .error f ∧ step s = .next (s.raise f)) ∨
    (∃ w f, s.fetch = .ok w ∧ decode s.cfg.enc w = .error f ∧ step s = .next (s.advancePc.raise f)) ∨
    (∃ w i t, s.fetch = .ok w ∧ decode s.cfg.enc w = .ok i ∧ step s = .next t ∧ Effect s.advancePc i t) := by
  cases hw : s.fetch with
  | error f => exact .inl ⟨f, rfl, step_of_fetch_error hrun hw⟩
  | ok w =>
    cases hd : decode s.cfg.enc w with
    | error f => exact .inr (.inl ⟨w, f, rfl, hd, step_of_decode_error hrun hw hd⟩)
    | ok i =>
      obtain ⟨t, ht, heffect⟩ := exec_effect (s := s.advancePc) i
      exact .inr (.inr ⟨w, i, t, rfl, hd, (step_of_about ⟨hrun, w, hw, hd⟩).trans ht, heffect⟩)

/-- Everything a step can have done. -/
theorem step_cases (h : step s = .next t) :
    (∃ f, s.fetch = .error f ∧ t = s.raise f) ∨
    (∃ w f, s.fetch = .ok w ∧ decode s.cfg.enc w = .error f ∧ t = s.advancePc.raise f) ∨
    (∃ w i, s.fetch = .ok w ∧ decode s.cfg.enc w = .ok i ∧ About s i ∧ Effect s.advancePc i t) := by
  have hrun := condition_of_step h
  obtain ⟨f, hf, ht⟩ | ⟨w, f, hw, hd, ht⟩ | ⟨w, i, u, hw, hd, ht, heffect⟩ := step_of_running hrun <;>
    rw [h] at ht <;> cases ht
  · exact .inl ⟨f, hf, rfl⟩
  · exact .inr (.inl ⟨w, f, hw, hd, rfl⟩)
  · exact .inr (.inr ⟨w, i, hw, hd, ⟨hrun, w, hw, hd⟩, heffect⟩)

end StepCases

/-! ### What every step keeps -/

section Keeps
variable {P : State → Prop}
  (hreg : ∀ s r v, P s → P (s.setReg r v))
  (hmem : ∀ s a b, a < s.memSize → P s → P { s with mem := s.mem.write a b })
  (hhalt : ∀ s b, P s → P { s with halted := b })
  (hcount : ∀ s, P s → P s.countDraw) (hraise : ∀ s f, P s → P (s.raise f))

include hmem in
theorem storedWord_keeps {s : State} {a : Nat} (v : Word) (ha : a + 1 < s.memSize) (hs : P s) :
    P (storedWord s a v) :=
  hmem { s with mem := s.mem.write a (Word.lo v) } (a + 1) (Word.hi v) ha (hmem s a (Word.lo v) (by omega) hs)

include hreg hmem hhalt hcount hraise

/-- A property that the single writes keep holds after every instruction. -/
theorem effect_keeps {i : Instr} {s t : State} (h : Effect s i t) (hs : P s) : P t := by
  cases h with
  | nop | noBranch => exact hs
  | mov | cmp | branch | loaded => exact hreg _ _ _ hs
  | arith => exact hreg _ _ _ (hreg _ _ _ hs)
  | divByZero | underflow | outside | unknownSignal => exact hraise _ _ hs
  | pushed v _ room => exact hreg _ _ _ (storedWord_keeps hmem v room hs)
  | stored _ _ room => exact storedWord_keeps hmem _ room hs
  | popped => exact hreg _ _ _ (hreg _ _ _ hs)
  | popOutside => exact hraise _ _ (hreg _ _ _ hs)
  | handled id hd => exact callHandler_keeps hreg hmem hhalt hcount hraise s id hd hs

/-- A property that the single writes keep holds after every step. -/
theorem step_keeps {s t : State} (h : step s = .next t) (hs : P s) : P t := by
  obtain ⟨f, -, rfl⟩ | ⟨w, f, -, -, rfl⟩ | ⟨w, i, -, -, -, heffect⟩ := step_cases h
  · exact hraise _ _ hs
  · exact hraise _ _ (hreg _ _ _ hs)
  · exact effect_keeps hreg hmem hhalt hcount hraise heffect (hreg _ _ _ hs)

end Keeps

/-- Settles O55: no write touches a parameter, and every byte write is range-checked and keeps the canonical form. -/
theorem stepKeepsInvariant : Obligations.StepKeepsInvariant := by
  intro s t hs hstep
  refine step_keeps (P := State.Inv) (fun _ _ _ h => h) ?write (fun _ _ h => h) (fun _ h => h) (fun _ _ h => h) hstep hs
  case write =>
    rintro s a b ha ⟨hcfg, hm⟩
    exact ⟨hcfg, MemOk.write hm ha b⟩

/-- Settles O49: no write of a step, a handler's included, is a write of a parameter or of `trace`. -/
theorem stepsKeepTheParameters : Obligations.StepsKeepTheParameters := fun s _ hstep =>
  step_keeps (P := fun t => t.cfg = s.cfg ∧ t.trace = s.trace) (fun _ _ _ h => h) (fun _ _ _ _ h => h)
    (fun _ _ h => h) (fun _ h => h) (fun _ _ h => h) hstep ⟨rfl, rfl⟩

/-- Settles O54: memory is empty after reset, so that only the parameters matter. -/
theorem resetMeetsInvariant : Obligations.ResetMeetsInvariant := by
  have inv {c : Config} (hc : c.wf) : (State.resetWith c).Inv := ⟨hc, Memory.wf_nil, by simp⟩
  exact ⟨fun _ => inv, inv Tests.test_default_config_wf⟩

/-! ### What an instruction that calls no handler keeps -/

section NoHandler
variable {i : Instr} {s t : State}

theorem effect_halted (h : Effect s i t) (hc : ¬ CallsHandler i s) : t.halted = s.halted := by
  cases h with
  | handled id hd hid => exact absurd ⟨id, hd, rfl, hid⟩ hc
  | _ => rfl

theorem eq_of_setReg_reg_ne {q r : Reg} {v : Word} (h : (s.setReg q v).reg r ≠ s.reg r) : r = q :=
  by_contra fun hne => h (reg_setReg_ne s q r v hne)

/-- An arithmetic or logic result changes its destination and FL alone (41_arith_logic.md R151). -/
theorem eq_of_writeResult_reg_ne {dst r : Reg} {res : Word × Bool}
    (h : (s.writeResult dst res).reg r ≠ s.reg r) : r = dst ∨ r = .fl := by
  by_contra hne
  obtain ⟨hdst, hfl⟩ := not_or.mp hne
  exact h (by rw [writeResult_reg_ne s dst res hfl, if_neg hdst])

/-- The registers that an instruction writes without calling a handler (10_state.md section 1). -/
theorem effect_reg_ne {r : Reg} (h : Effect s i t) (hc : ¬ CallsHandler i s) (hr : t.reg r ≠ s.reg r) :
    dest i = some r ∨
    (r = .sp ∧ i.mnemonic ∈ [Mnemonic.push, .pushReg, .pop]) ∨
    (r = .pc ∧ Taken i s) ∨
    (r = .fl ∧ i.mnemonic ∈ [Mnemonic.add, .sub, .mul, .div, .shl, .shr, .and, .or, .xor, .not, .cmp]) := by
  cases h with
  | nop | noBranch | divByZero | underflow | stored | outside | unknownSignal => exact absurd rfl hr
  | mov | loaded => exact .inl (congrArg some (eq_of_setReg_reg_ne hr).symm)
  | arith op dst src =>
    obtain rfl | rfl := eq_of_writeResult_reg_ne hr
    · exact .inl (dest_arithInstr ..)
    · exact .inr (.inr (.inr ⟨rfl, mnemonic_arithInstr ..⟩))
  | cmp left right => exact .inr (.inr (.inr ⟨eq_of_setReg_reg_ne hr, by simp [Instr.mnemonic]⟩))
  | pushed v hi => exact .inr (.inl ⟨eq_of_setReg_reg_ne hr, List.mem_append_left [Mnemonic.pop] hi.mnemonic⟩)
  | popped q v =>
    by_cases hq : r = q
    · exact .inl (congrArg some hq.symm)
    · rw [reg_setReg_ne _ _ _ _ hq] at hr
      exact .inr (.inl ⟨eq_of_setReg_reg_ne hr, by simp [Instr.mnemonic]⟩)
  | popOutside => exact .inr (.inl ⟨eq_of_setReg_reg_ne hr, by simp [Instr.mnemonic]⟩)
  | branch off _ taken => exact .inr (.inr (.inl ⟨eq_of_setReg_reg_ne hr, taken⟩))
  | handled id hd hid => exact absurd ⟨id, hd, rfl, hid⟩ hc

theorem mnemonic_of_taken (h : Taken i s) : i.mnemonic ∈ [Mnemonic.jmp, .je, .jne] := by
  obtain ⟨off, rfl⟩ | ⟨off, rfl, -⟩ | ⟨off, rfl, -⟩ := h <;> simp [Instr.mnemonic]

end NoHandler

/-- Settles O48: every other effect leaves `halted` as it was. -/
theorem onlyHandlersChangeHalted : Obligations.OnlyHandlersChangeHalted := fun _ _ _ hexec hne =>
  by_contra fun hc => hne (effect_halted (effect_of_exec hexec) hc)

/-- Settles O50: the registers written by each effect; PC by a branch only where it is taken. -/
theorem registersWrittenImplicitly : Obligations.RegistersWrittenImplicitly := by
  intro i s t r hexec hc hr
  obtain hdest | hsp | ⟨hpc, htaken⟩ | hfl := effect_reg_ne (effect_of_exec hexec) hc hr
  · exact .inl hdest
  · exact .inr (.inl hsp)
  · exact .inr (.inr (.inl ⟨hpc, mnemonic_of_taken htaken⟩))
  · exact .inr (.inr (.inr hfl))

/-- Settles O24: by O50, FL changes as a destination or in an arithmetic, logic or compare instruction, and none of
the eleven is one. -/
theorem otherInstructionsKeepFlags : Obligations.OtherInstructionsKeepFlags := by
  intro i s t hmn hdest hc hexec
  by_contra hne
  obtain h | ⟨h, -⟩ | ⟨h, -⟩ | ⟨-, h⟩ := registersWrittenImplicitly i s t .fl hexec hc hne
  · exact hdest h
  · cases h
  · cases h
  · revert h hmn
    cases i.mnemonic <;> decide

/-- A byte that a word store changed is one of its two (20_memory.md R65). -/
theorem eq_of_storedWord_readByte_ne {s : State} (hm : s.mem.wf) {a x : Nat} {v : Word}
    (h : (storedWord s a v).readByte x ≠ s.readByte x) : x = a ∨ x = a + 1 := by
  by_contra hne
  exact h (storedWord_sameMemOutside v hm x (by omega))

/-- Settles O51: pushes and `Store` write memory by `storedWord` alone, the other effects not at all. -/
theorem memoryChangesOnlyWhereStored : Obligations.MemoryChangesOnlyWhereStored := by
  rintro i s t a ⟨-, hm, -⟩ hexec hc ha
  cases effect_of_exec hexec with
  | pushed v hi => exact .inl ⟨hi.mnemonic, eq_of_storedWord_readByte_ne hm ha⟩
  | stored value addr => exact .inr ⟨value, addr, rfl, eq_of_storedWord_readByte_ne hm ha⟩
  | handled id hd hid => exact absurd ⟨id, hd, rfl, hid⟩ hc
  | _ => exact absurd rfl ha

end Sys2Proof.Machine
end

section
/-! SUPPORT. Writes of the memory port read back (20_memory.md sections 1 and 2): a byte, a word and a bulk load, each
with its frame, and the ranges in which each access succeeds. -/

namespace Sys2Proof.Machine

open Sys2Proof.Stmt

/-- A byte reads alike where memory holds it alike, on machines with the same parameters. -/
theorem readByte_congr {s t : State} {x : Nat} (hc : t.cfg = s.cfg) (hm : t.mem.read x = s.mem.read x) :
    t.readByte x = s.readByte x := by
  have hsize : t.memSize = s.memSize := congrArg Config.memSize hc
  rw [State.readByte, State.readByte, hsize, hm]

section ByteWrite
variable {s : State} {a : Nat} (b : Byte)

theorem write_readByte_same (hm : s.mem.wf) (ha : a < s.memSize) :
    State.readByte { s with mem := s.mem.write a b } a = .ok b :=
  readByte_ok_iff.mpr ⟨ha, by simp [Memory.read_write hm]⟩

theorem write_sameMemOutside (hm : s.mem.wf) : SameMemOutside a 1 s { s with mem := s.mem.write a b } := by
  intro x hx
  have hne : x ≠ a := by omega
  exact readByte_congr rfl (by simp [Memory.read_write hm, hne])

end ByteWrite

/-- A stored word is read back whole (20_memory.md R64 and R65). -/
theorem storedWord_readWord {s : State} {a : Nat} (v : Word) (hm : s.mem.wf) (h : a + 1 < s.memSize) :
    (storedWord s a v).readWord a = .ok v := by
  rw [readWord_of_readByte (storedWord_readByte_lo v hm (by omega)) (storedWord_readByte_hi v hm h), ofBytes_lo_hi]

section BulkLoad
variable {s : State} {base : Nat} {image : List Byte}

/-- The state after a bulk load that succeeds. -/
def storedImage (s : State) (base : Nat) (image : List Byte) : State :=
  { s with mem := storeBytes s.mem base image }

theorem load_of_le (h : base + image.length ≤ s.memSize) : s.load image base = .ok (storedImage s base image) :=
  if_pos h

theorem load_of_lt (h : s.memSize < base + image.length) :
    s.load image base = .error (.outOfBounds (max base s.memSize)) :=
  if_neg (not_le.mpr h)

theorem storedImage_readByte (hm : s.mem.wf) (h : base + image.length ≤ s.memSize) {k : Nat} {b : Byte}
    (hb : image[k]? = some b) : (storedImage s base image).readByte (base + k) = .ok b := by
  obtain ⟨hk, -⟩ := List.getElem?_eq_some_iff.mp hb
  have hlt : base + k < s.memSize := by omega
  refine readByte_ok_iff.mpr ⟨hlt, (read_storeBytes hm base image (base + k)).trans ?_⟩
  simp [hb]

theorem storedImage_sameMemOutside (hm : s.mem.wf) :
    SameMemOutside base image.length s (storedImage s base image) := by
  intro x hx
  refine readByte_congr rfl ((read_storeBytes hm base image x).trans ?_)
  rcases hx with hlt | hge
  · simp [not_le.mpr hlt]
  · have hout : image[x - base]? = none := List.getElem?_eq_none (by omega)
    simp [hout]

end BulkLoad

section Ranges
variable {s : State} {a : Nat}

theorem readWord_ok_iff : (∃ v, s.readWord a = .ok v) ↔ a + 1 < s.memSize := by
  obtain ⟨h, hread⟩ | ⟨h, hread⟩ | ⟨h, hread⟩ := readWord_cases s a <;> simp [hread] <;> omega

theorem writeWord_ok_iff (v : Word) : (∃ t, s.writeWord a v = .ok t) ↔ a + 1 < s.memSize := by
  obtain ⟨h, hwrite⟩ | ⟨h, hwrite⟩ | ⟨h, hwrite⟩ := writeWord_cases s a v <;> simp [hwrite] <;> omega

theorem load_ok_iff (image : List Byte) : (∃ t, s.load image a = .ok t) ↔ a + image.length ≤ s.memSize := by
  refine ⟨fun ⟨t, ht⟩ => ?_, fun h => ⟨_, load_of_le h⟩⟩
  by_contra h
  rw [load_of_lt (not_le.mp h)] at ht
  cases ht

end Ranges

/-- Settles O17: an image that fits is stored by `storeBytes` alone. -/
theorem loadPlacesTheImage : Obligations.LoadPlacesTheImage := by
  rintro s image base ⟨-, hm, -⟩
  refine ⟨fun h => ⟨storedImage s base image, load_of_le h, fun _ _ hb => storedImage_readByte hm h hb,
    storedImage_sameMemOutside hm, fun _ _ => rfl, ⟨rfl, rfl, rfl, rfl⟩, rfl⟩, fun h => ?refused⟩
  case refused => exact ⟨_, le_max_right .., load_of_lt h⟩

/-- Settles O18: each access answers by the range of its addresses. -/
theorem everyAccessIsRangeChecked : Obligations.EveryAccessIsRangeChecked := by
  rintro s a ⟨-, hm, -⟩
  refine ⟨?byteRead, fun b => ?byteWrite, readWord_ok_iff, writeWord_ok_iff, load_ok_iff⟩
  case byteRead =>
    split
    · next ha => exact ⟨_, readByte_ok_iff.mpr ⟨ha, rfl⟩⟩
    · next ha => exact readByte_error_iff.mpr ⟨not_lt.mp ha, rfl⟩
  case byteWrite =>
    obtain ⟨ha, hwrite⟩ | ⟨ha, hwrite⟩ := writeByte_cases s a b
    · rw [if_pos ha]
      exact ⟨_, hwrite, write_readByte_same b hm ha, write_sameMemOutside b hm, fun _ _ => rfl,
        ⟨rfl, rfl, rfl, rfl⟩, rfl⟩
    · rw [if_neg (not_lt.mpr ha), hwrite]

/-- Settles O20: a word write ends in `storedWord` or stores nothing. -/
theorem wordWriteIsAllOrNothing : Obligations.WordWriteIsAllOrNothing := by
  rintro s a v ⟨-, hm, -⟩
  refine ⟨fun h => ?stored, writeWord_of_ge v, fun _ hge => writeWord_of_succ_eq v (by omega)⟩
  case stored =>
    exact ⟨_, writeWord_of_lt v h, storedWord_readByte_lo v hm (by omega), storedWord_readByte_hi v hm h,
      storedWord_readWord v hm h, storedWord_sameMemOutside v hm, fun r _ => storedWord_reg s a v r,
      ⟨rfl, rfl, rfl, rfl⟩, rfl⟩

/-- Settles O21: of the two bytes read, the first was stored as the high byte and the second is outside the store. -/
theorem overlappingWordsShareAByte : Obligations.OverlappingWordsShareAByte := by
  rintro s t a v ⟨-, hm, -⟩ hwrite hlt
  rw [writeWord_of_lt v (by omega)] at hwrite
  cases hwrite
  have second : s.readByte (a + 2) = .ok (s.mem.read (a + 2)) := readByte_ok_iff.mpr ⟨hlt, rfl⟩
  have kept : (storedWord s a v).readByte (a + 2) = s.readByte (a + 2) :=
    storedWord_sameMemOutside v hm (a + 2) (by omega)
  refine ⟨_, _, readWord_of_readByte (storedWord_readByte_hi v hm (by omega)) (kept.trans second), second, ?_⟩
  rw [ofBytes_toNat, Word.hi_eq_ofNat, BitVec.toNat_ofNat]
  have hv := v.isLt
  omega

/-- Settles O57: LOAD_BASE is 0 on a legal machine, so the image begins at the address that PC holds after reset. -/
theorem loadedProgramStartsAtPc : Obligations.LoadedProgramStartsAtPc := by
  rintro c image ⟨-, -, -, hbase⟩
  have hload : (State.resetWith c).loadProgram image = (State.resetWith c).load image 0 :=
    congrArg ((State.resetWith c).load image) hbase
  have hfits : (∃ t, (State.resetWith c).load image 0 = .ok t) ↔ image.length ≤ c.memSize := by
    rw [load_ok_iff, Nat.zero_add, resetWith_memSize]
  rw [hload]
  refine ⟨hfits, fun t ht => ?loaded⟩
  have hlen : 0 + image.length ≤ (State.resetWith c).memSize := (load_ok_iff image).mp ⟨t, ht⟩
  rw [load_of_le hlen] at ht
  cases ht
  have placed {k : Nat} {b : Byte} (hb : image[k]? = some b) :
      (storedImage (State.resetWith c) 0 image).readByte k = .ok b :=
    Nat.zero_add k ▸ storedImage_readByte Memory.wf_nil hlen hb
  refine ⟨fun _ _ => placed, fun a hge hlt => ?outside, fun lo hi rest himage => ?entry,
    resetWith_condition c, fun _ _ => rfl, ⟨rfl, rfl, rfl, rfl⟩, rfl⟩
  case outside =>
    rw [storedImage_sameMemOutside Memory.wf_nil a (.inr (by omega)), resetWith_readByte c hlt]
  case entry =>
    have hpc : ((storedImage (State.resetWith c) 0 image).reg .pc).toNat = 0 :=
      congrArg BitVec.toNat (resetWith_reg c .pc)
    rw [State.fetch, hpc]
    exact readWord_of_readByte (placed (by simp [himage])) (placed (by simp [himage]))

end Sys2Proof.Machine
end

section
/-! SUPPORT. The run loop (40_step_and_nop.md section 1), PC over a step, and what a fault leaves behind
(60_exceptions.md section 1). -/

namespace Sys2Proof.Machine

open Sys2Proof.Stmt

/-! ### The run loop -/

section RunLoop
variable {s t : State}

theorem runLoop_of_not_running (h : s.condition ≠ .running) (n : Nat) : runLoop n s = s := by
  cases n with
  | zero => rfl
  | succ n =>
    obtain ⟨r, hr⟩ := step_of_not_running h
    simp [runLoop, hr]

theorem runLoop_succ (h : step s = .next t) (n : Nat) : runLoop (n + 1) s = runLoop n t := by
  simp [runLoop, h]

theorem exists_step (h : s.condition = .running) : ∃ t, step s = .next t := by
  obtain ⟨_, -, hstep⟩ | ⟨_, _, -, -, hstep⟩ | ⟨_, _, _, -, -, hstep, -⟩ := step_of_running h <;>
    exact ⟨_, hstep⟩

theorem runLoop_add (m n : Nat) (s : State) : runLoop (m + n) s = runLoop n (runLoop m s) := by
  induction m generalizing s with
  | zero => rw [Nat.zero_add, runLoop]
  | succ m ih =>
    by_cases hrun : s.condition = .running
    · obtain ⟨t, ht⟩ := exists_step hrun
      rw [Nat.succ_add, runLoop_succ ht, runLoop_succ ht, ih]
    · rw [runLoop_of_not_running hrun, runLoop_of_not_running hrun, runLoop_of_not_running hrun]

/-- A run that has stopped has a last step. -/
theorem exists_last_step (n : Nat) (hrun : s.condition = .running) (hend : (runLoop n s).condition ≠ .running) :
    ∃ k, step (runLoop k s) = .next (runLoop n s) := by
  induction n generalizing s with
  | zero => exact absurd hrun hend
  | succ n ih =>
    obtain ⟨u, hu⟩ := exists_step hrun
    rw [runLoop_succ hu] at hend ⊢
    by_cases hrun' : u.condition = .running
    · obtain ⟨k, hk⟩ := ih hrun' hend
      exact ⟨k + 1, by rw [runLoop_succ hu, hk]⟩
    · exact ⟨0, by rw [runLoop_of_not_running hrun' n, runLoop, hu]⟩

end RunLoop

/-- Settles O8: the step is total on running states and on no other, and a run does not leave any other. -/
theorem stepsExactlyWhileRunning : Obligations.StepsExactlyWhileRunning := by
  refine fun s => ⟨⟨exists_step, fun ⟨_, ht⟩ => condition_of_step ht⟩, ?running, ?halted, runLoop_of_not_running⟩
  case running => rw [condition_running_iff, and_comm]
  case halted => rw [condition_halted_iff, and_comm]

/-- Settles O14: the last step of the run has set `halted`, which only a handler does. -/
theorem successfulRunEndsInASignal : Obligations.SuccessfulRunEndsInASignal := by
  rintro n s _ hrun ⟨rfl, hend⟩
  obtain ⟨hfault, hhalted⟩ := condition_halted_iff.mp hend
  refine ⟨fun f ⟨_, hf⟩ => ?noFault, ?lastStep⟩
  case noFault =>
    rw [hfault] at hf
    cases hf
  case lastStep =>
    obtain ⟨k, hk⟩ := exists_last_step n hrun (by simp [hend])
    obtain ⟨-, hrunning⟩ := condition_running_iff.mp (condition_of_step hk)
    have hne : (runLoop n s).halted ≠ (runLoop k s).halted := by simp [hhalted, hrunning]
    obtain ⟨f, -, ht⟩ | ⟨w, f, -, -, ht⟩ | ⟨w, i, -, -, habout, heffect⟩ := step_cases hk
    · exact absurd (congrArg State.halted ht) hne
    · exact absurd (congrArg State.halted ht) hne
    · obtain ⟨id, hd, rfl, hid⟩ : CallsHandler i (runLoop k s).advancePc :=
        by_contra fun hc => absurd (effect_halted heffect hc) hne
      exact ⟨k, _, id, hd, rfl, habout, hid, hk⟩

/-! ### PC -/

theorem advancePc_reg_pc_toNat (s : State) : (s.advancePc.reg .pc).toNat = ((s.reg .pc).toNat + 2) % 65536 := by
  rw [advancePc_reg_pc, u16_toNat]

/-- A taken branch is one write of PC (44_branch.md R200). -/
theorem exec_of_taken {i : Instr} {s : State} (h : Taken i s) :
    ∃ off, exec i s = .next (s.setReg .pc (branchTarget (s.reg .pc) off)) := by
  obtain ⟨off, rfl⟩ | ⟨off, rfl, hflag⟩ | ⟨off, rfl, hflag⟩ := h
  · exact ⟨off, exec_jmp off s⟩
  · exact ⟨off, by simp [exec_je, hflag]⟩
  · exact ⟨off, by simp [exec_jne, hflag]⟩

/-- Settles O9: no effect but those named writes PC after the advance. -/
theorem pcMovesByTwoOtherwise : Obligations.PcMovesByTwoOtherwise := by
  intro s t i habout hstep htaken hdest hc
  rw [step_of_about habout] at hstep
  have kept : t.reg .pc = s.advancePc.reg .pc := by
    by_contra hne
    obtain h | ⟨h, -⟩ | ⟨-, h⟩ | ⟨h, -⟩ := effect_reg_ne (effect_of_exec hstep) hc hne
    · exact hdest h
    · cases h
    · exact htaken h
    · cases h
  rw [kept, advancePc_reg_pc_toNat]

/-- Settles O10: a taken branch moves PC by an even number, and any other instruction by 2. -/
theorem pcStaysEven : Obligations.PcStaysEven := by
  intro s t i habout hstep hdest hc heven
  by_cases htaken : Taken i s.advancePc
  · obtain ⟨off, hexec⟩ := exec_of_taken htaken
    rw [step_of_about habout, hexec] at hstep
    cases hstep
    have hnext := advancePc_reg_pc_toNat s
    have htarget := branchTarget_toNat (s.advancePc.reg .pc) off
    rw [reg_setReg_same]
    omega
  · have hpc := pcMovesByTwoOtherwise s t i habout hstep htaken hdest hc
    omega

section ZeroedMemory

/-- A word of zeros at PC is `Nop` where 0x00 is its opcode. -/
theorem about_nop_of_zeros {s : State} (hrun : s.condition = .running) (he : s.cfg.enc.wf)
    (hnop : s.cfg.enc.opc.get .nop = 0) (hlo : s.readByte (s.reg .pc).toNat = .ok 0)
    (hhi : s.readByte ((s.reg .pc).toNat + 1) = .ok 0) : About s .nop := by
  have hop : s.cfg.enc.opc.get .nop = Word.lo (Word.ofBytes 0 0) := by rw [hnop, lo_ofBytes]
  exact ⟨hrun, _, readWord_of_readByte hlo hhi, decode_eq_of_get he.1 hop⟩

theorem runLoop_zeros (n : Nat) (s : State) (hrun : s.condition = .running) (he : s.cfg.enc.wf)
    (hnop : s.cfg.enc.opc.get .nop = 0) (hpc : (s.reg .pc).toNat + 2 * n ≤ 65535)
    (hzero : ∀ a, (s.reg .pc).toNat ≤ a → a < (s.reg .pc).toNat + 2 * n → s.readByte a = .ok 0) :
    runLoop n s = s.setReg .pc (u16 ((s.reg .pc).toNat + 2 * n)) := by
  induction n generalizing s with
  | zero => simp [runLoop, u16]
  | succ n ih =>
    have hstep : step s = .next s.advancePc :=
      step_of_about (about_nop_of_zeros hrun he hnop (hzero _ (by omega) (by omega)) (hzero _ (by omega) (by omega)))
    have hnext : (s.advancePc.reg .pc).toNat = (s.reg .pc).toNat + 2 := by
      rw [advancePc_reg_pc_toNat, Nat.mod_eq_of_lt (by omega)]
    have hend : (s.advancePc.reg .pc).toNat + 2 * n = (s.reg .pc).toNat + 2 * (n + 1) := by omega
    rw [runLoop_succ hstep,
      ih s.advancePc hrun he hnop (by omega) fun a hge hlt => hzero a (by omega) (by omega), hend]
    exact setReg_setReg_same ..

/-- A fetch at the end of memory latches its fault with PC there (40_step_and_nop.md R136). -/
theorem step_off_the_end {s : State} (hpc : (s.reg .pc).toNat = s.memSize) (hrun : s.condition = .running) :
    step s = .next (s.raise (.outOfBounds s.memSize)) := by
  refine step_of_fetch_error hrun ?_
  rw [State.fetch, hpc]
  exact readWord_of_ge le_rfl

end ZeroedMemory

/-- Settles O11: each word of zeros is a step about `Nop`, and at the end of memory the fetch fails. -/
theorem zeroedMemoryRunsAsNops : Obligations.ZeroedMemoryRunsAsNops := by
  intro n s hrun he hnop hpc hzero
  have hrunLoop := runLoop_zeros n s hrun he hnop hpc hzero
  refine ⟨hrunLoop, fun hsize => ?offTheEnd⟩
  have hend : ((s.setReg .pc (u16 ((s.reg .pc).toNat + 2 * n))).reg .pc).toNat = s.memSize := by
    rw [reg_setReg_same, u16_toNat, Nat.mod_eq_of_lt (by omega), hsize]
  rw [runLoop_add, hrunLoop, runLoop_succ (step_off_the_end hend hrun), runLoop]
  exact ⟨raise_fault .., hend⟩

/-! ### Faults -/

section Faults
variable {i : Instr} {s t : State} {f : CoreFault}

/-- What an instruction that raises a fault without calling a handler leaves: the latch apart, only a `Pop` whose read
failed has written anything (60_exceptions.md R234). -/
theorem effect_of_fault (h : Effect s i t) (hc : ¬ CallsHandler i s) (hs : s.fault = none) (hf : t.fault = some f) :
    (t = s.raise f ∧ ∀ r, i = .pop r → f = .stackUnderflow) ∨
    (∃ r, i = .pop r ∧ t = s.dropWord.raise f ∧ f ≠ .stackUnderflow ∧ 2 ≤ (s.reg .sp).toNat) := by
  cases h with
  | divByZero | unknownSignal =>
    cases hf
    exact .inl ⟨rfl, nofun⟩
  | underflow r =>
    cases hf
    exact .inl ⟨rfl, fun _ _ => rfl⟩
  | outside a hi =>
    cases hf
    refine .inl ⟨rfl, fun r hr => ?_⟩
    subst hr
    simp [Instr.mnemonic] at hi
  | popOutside r a deep =>
    cases hf
    exact .inr ⟨r, rfl, rfl, nofun, deep⟩
  | handled id hd hid => exact absurd ⟨id, hd, rfl, hid⟩ hc
  | _ => exact absurd (hs.symm.trans hf) nofun

/-- Settles O13: a case for each effect that latches a fault. -/
theorem faultsByInstruction : Obligations.FaultsByInstruction := by
  intro i s t f hs hexec hf
  cases effect_of_exec hexec with
  | divByZero dst src =>
    cases hf
    exact .inl ⟨dst, src, rfl, rfl⟩
  | outside a hi ha =>
    cases hf
    refine .inr (.inl ⟨?_, a, ha, rfl⟩)
    cases i <;> simp [Instr.mnemonic] at hi ⊢
  | underflow r =>
    cases hf
    exact .inr (.inr (.inl ⟨r, rfl, .inl rfl⟩))
  | popOutside r a _ ha =>
    cases hf
    exact .inr (.inr (.inl ⟨r, rfl, .inr ⟨a, ha, rfl⟩⟩))
  | unknownSignal id hid =>
    cases hf
    exact .inr (.inr (.inr ⟨id, rfl, .inl ⟨hid, rfl⟩⟩))
  | handled id hd hid => exact .inr (.inr (.inr ⟨id, rfl, .inr ⟨⟨hd, hid⟩, callHandler_fault hs hf⟩⟩))
  | _ => exact absurd (hs.symm.trans hf) nofun

/-- The three ways in which a step latches a fault without calling a handler, told apart by what was written before
(40_step_and_nop.md R133; 60_exceptions.md R234). -/
theorem step_of_fault (h : step s = .next t) (hf : t.fault = some f) (hcalls : ∀ i, About s i → ¬ CallsHandler i s) :
    (s.fetch = .error f ∧ t = s.raise f) ∨
    (∃ w, s.fetch = .ok w ∧ t = s.advancePc.raise f ∧
      ∀ r, decode s.cfg.enc w = .ok (.pop r) → f = .stackUnderflow) ∨
    (∃ w r, s.fetch = .ok w ∧ t = s.advancePc.dropWord.raise f ∧ decode s.cfg.enc w = .ok (.pop r) ∧
      f ≠ .stackUnderflow ∧ 2 ≤ (s.reg .sp).toNat) := by
  obtain ⟨hs, -⟩ := condition_running_iff.mp (condition_of_step h)
  obtain ⟨g, hfetch, rfl⟩ | ⟨w, g, hfetch, hd, rfl⟩ | ⟨w, i, hfetch, hd, habout, heffect⟩ := step_cases h
  · cases hf
    exact .inl ⟨hfetch, rfl⟩
  · cases hf
    exact .inr (.inl ⟨w, hfetch, rfl, fun r hr => by rw [hd] at hr; cases hr⟩)
  · obtain ⟨rfl, hpop⟩ | ⟨r, rfl, rfl, hne, deep⟩ := effect_of_fault heffect (hcalls i habout) hs hf
    · refine .inr (.inl ⟨w, hfetch, rfl, fun r hr => hpop r ?_⟩)
      rw [hd] at hr
      cases hr
      rfl
    · exact .inr (.inr ⟨w, r, hfetch, rfl, hd, hne, deep⟩)

end Faults

/-- Settles O12: the latch is taken before the PC advance by a fetch, on the advanced state by anything else, and after
SP has moved by a `Pop` whose read failed. -/
theorem faultsArePrecise : Obligations.FaultsArePrecise := by
  intro s t f hstep hf hcalls
  have fetched {v w : Word} (hv : s.fetch = .ok v) (hw : s.fetch = .ok w) : v = w := by simpa [hv] using hw
  obtain ⟨hfetch, rfl⟩ | ⟨v, hfetch, rfl, hpop⟩ | ⟨v, r, hfetch, rfl, hd, hne, deep⟩ := step_of_fault hstep hf hcalls
  · refine ⟨fun _ => rfl, ⟨rfl, rfl, rfl, rfl⟩, fun g hg => ⟨?_, fun _ _ => rfl⟩, fun w hw => ?_⟩
    · simpa [hfetch] using hg
    · simp [hfetch] at hw
  · refine ⟨fun _ => rfl, ⟨rfl, rfl, rfl, rfl⟩, fun g hg => by simp [hfetch] at hg, fun w hw => ?_⟩
    obtain rfl := fetched hfetch hw
    exact ⟨advancePc_reg_pc_toNat s, fun q hq => advancePc_reg_ne s (List.ne_of_not_mem_cons hq),
      fun hsp => absurd rfl hsp, fun r hr hne => absurd (hpop r hr) hne⟩
  · refine ⟨fun _ => rfl, ⟨rfl, rfl, rfl, rfl⟩, fun g hg => by simp [hfetch] at hg, fun w hw => ?_⟩
    obtain rfl := fetched hfetch hw
    have hsp : (s.advancePc.dropWord.reg .sp).toNat + 2 = (s.reg .sp).toNat := dropWord_reg_sp_toNat deep
    refine ⟨advancePc_reg_pc_toNat s, fun q hq => ?_, fun _ => ⟨⟨r, hd⟩, hne, hsp⟩, fun _ _ _ => hsp⟩
    obtain ⟨hpc, hsp⟩ : q ≠ .pc ∧ q ≠ .sp := by simpa using hq
    exact (dropWord_reg_ne _ hsp).trans (advancePc_reg_ne s hpc)

/-- Settles O22: the stored word is what the next fetch reads, and it decodes to the instruction it encodes. -/
theorem storeIsSeenByTheNextFetch : Obligations.StoreIsSeenByTheNextFetch := by
  rintro s value addr j ⟨⟨he, -⟩, hm, -⟩ habout haddr hvalue hlt
  have hstore : s.advancePc.writeWord (s.advancePc.regAddr addr) (s.advancePc.reg value) =
      .ok (storedWord s.advancePc (s.advancePc.reg .pc).toNat (encode s.cfg.enc j)) := by
    rw [haddr, hvalue]
    exact writeWord_of_lt _ hlt
  have hnext : About (storedWord s.advancePc (s.advancePc.reg .pc).toNat (encode s.cfg.enc j)) j :=
    ⟨habout.1, _, storedWord_readWord _ hm hlt, decode_encode he j⟩
  exact ⟨_, (step_of_about habout).trans (exec_store_of_ok hstore), hnext, step_of_about hnext⟩

end Sys2Proof.Machine
end

section
/-! SUPPORT. Flags and results (00_scope.md section 4; 41_arith_logic.md; `Cmp` of 42_mov_cmp.md): the whole effect of
writing a result, which the ten instructions of NUM share, and the defaults of NUM as numbers. -/

namespace Sys2Proof

theorem bitAt_eq_testBit (v : Word) (k : Nat) : bitAt v k = v.toNat.testBit k := (BitVec.testBit_toNat v).symm

theorem bitAt_or (v w : Word) (k : Nat) : bitAt (v ||| w) k = (bitAt v k || bitAt w k) := BitVec.getLsbD_or

/-- Bit 15 of a word is set from 32768 on. -/
theorem bitAt_fifteen (r : Word) : bitAt r 15 = decide (32768 ≤ r.toNat) := by
  rw [bitAt_eq_testBit, Nat.testBit_eq_decide_div_mod_eq]
  have hlt := r.isLt
  congr 1
  apply propext
  omega

/-- Compare of a result, by its number. -/
theorem beq_zero_eq_decide (r : Word) : (r == 0) = decide (r.toNat = 0) := by
  rw [Bool.eq_iff_iff, beq_iff_eq, decide_eq_true_iff]
  exact BitVec.toNat_eq

/-- The default flag bits of a word that holds nothing else (10_state.md R38). -/
theorem bitAt_flagBits (ov n z : Bool) :
    ∀ k < 16, bitAt ((if ov then 4 else 0) ||| (if n then 2 else 0) ||| (if z then 1 else 0)) k =
      if k = 0 then z else if k = 1 then n else if k = 2 then ov else false := by
  cases ov <;> cases n <;> cases z <;> decide

/-- What a mask leaves for the default flag bits is the rest of the word. -/
theorem bitAt_and_mask (v : Word) {k : Nat} (hk : k < 16) :
    bitAt (v &&& 0xFFF8) k = (bitAt v k && decide (3 ≤ k)) := by
  have mask : ∀ k < 16, (0xFFF8 : Word).getLsbD k = decide (3 ≤ k) := by decide
  rw [bitAt, BitVec.getLsbD_and, mask k hk, bitAt]

/-- `setflags` at the default flag positions, as a mask and three bits (00_scope.md R11; 10_state.md R38). -/
theorem resultFlags_default (v r : Word) (ov : Bool) :
    resultFlags FlagBits.default v ov r =
      (v &&& 0xFFF8) ||| (if ov then 4 else 0) ||| (if 32768 ≤ r.toNat then 2 else 0) |||
        (if r = 0 then 1 else 0) := by
  have positions : resultFlags FlagBits.default v ov r =
      replaceBit (replaceBit (replaceBit v 2 ov) 1 (bitAt r 15)) 0 (r == 0) := rfl
  have flagBits := bitAt_flagBits ov (decide (32768 ≤ r.toNat)) (decide (r = 0))
  simp only [decide_eq_true_eq] at flagBits
  rw [positions, bitAt_fifteen, BitVec.or_assoc, BitVec.or_assoc, ← BitVec.or_assoc (if ov then 4 else 0)]
  refine Word.ext_bitAt fun k hk => ?_
  rw [bitAt_replaceBit _ _ _ (by decide), bitAt_replaceBit _ _ _ (by decide), bitAt_replaceBit _ _ _ (by decide),
    bitAt_or, flagBits k hk, bitAt_and_mask v hk]
  by_cases h3 : 3 ≤ k
  · have h0 : k ≠ 0 := by omega
    have h1 : k ≠ 1 := by omega
    have h2 : k ≠ 2 := by omega
    simp [h0, h1, h2, h3]
  · interval_cases k <;> simp [beq_eq_decide]

/-- Settles O23: a flag's bit is replaced alone, and three such writes make `setflags`. -/
theorem flagWritesLeaveOtherBits : Obligations.FlagWritesLeaveOtherBits := by
  refine fun p fl hp => ⟨fun f b => ⟨?written, fun k hk => bitAt_writeFlag_other fl f b hk⟩, fun ov r => ?setflags⟩
  case written => rw [readFlag_writeFlag hp, if_pos rfl]
  case setflags =>
    refine ⟨readFlag_resultFlags hp .., ?_, ?_, fun k hk => bitAt_resultFlags_other fl ov r hk⟩
    · rw [← bitAt_fifteen]; exact readFlag_resultFlags hp ..
    · rw [← beq_zero_eq_decide]; exact readFlag_resultFlags hp ..

namespace Machine

open Sys2Proof.Stmt

section WriteResult
variable {s : State} (dst : Reg) (res : Word × Bool)

theorem writeResult_onlyRegs : OnlyRegs [dst, .fl] s (s.writeResult dst res) := by
  refine ⟨fun q hq => ?_, fun _ => rfl, ⟨rfl, rfl, rfl, rfl⟩, rfl⟩
  obtain ⟨hdst, hfl⟩ : q ≠ dst ∧ q ≠ .fl := by simpa using hq
  rw [writeResult_reg_ne s dst res hfl, if_neg hdst]

theorem writeResult_flag (hp : s.cfg.flbit.wf) (f : Flag) :
    (s.writeResult dst res).flag f =
      match f with
      | .overflow => res.2
      | .negative => bitAt res.1 15
      | .compare => (res.1 == 0) := by
  rw [State.flag, writeResult_reg_fl]
  exact readFlag_resultFlags hp ..

/-- Writing a result has the whole effect of an arithmetic or logic instruction (41_arith_logic.md R151 to R153). -/
theorem writeResult_resultEffect (hp : s.cfg.flbit.wf) :
    ResultEffect s (s.writeResult dst res) dst res.1.toNat res.2 := by
  refine ⟨fun hdst => ?dst, writeResult_flag dst res hp .overflow, ?negative, ?compare, fun k _ hk => ?others,
    writeResult_onlyRegs dst res⟩
  case dst => rw [writeResult_reg_ne s dst res hdst, if_pos rfl]
  case negative => rw [← bitAt_fifteen]; exact writeResult_flag dst res hp .negative
  case compare => rw [← beq_zero_eq_decide]; exact writeResult_flag dst res hp .compare
  case others =>
    rw [writeResult_reg_fl, bitAt_resultFlags_other _ _ _ hk, ← bitAt_eq_testBit]
    split <;> rfl

end WriteResult

/-- The common step of arithmetic and logic has the effect of the result that NUM gives (41_arith_logic.md R151). -/
theorem arith_resultEffect {op : ArithOp} {dst src : Reg} {s : State} (hs : s.Inv) (h : op ≠ .div ∨ s.reg src ≠ 0) :
    ∃ t, exec (arithInstr op dst src) s = .next t ∧
      ResultEffect s t dst (numResult op dst src s).1.toNat (numResult op dst src s).2 :=
  ⟨_, exec_arith h, writeResult_resultEffect dst _ hs.1.2.1⟩

/-- Settles O25: the ten instructions share the common step, and a zero divisor is caught before it. -/
theorem arithmeticAppliesNum : Obligations.ArithmeticAppliesNum := by
  refine fun op dst src s hs => ⟨arith_resultEffect hs, fun hop hsrc => ?zeroDivisor⟩
  case zeroDivisor =>
    subst hop
    exact raisesOnly_of_exec (exec_div_zero hsrc)

/-! ### The defaults of NUM -/

/-- With NUM at its defaults, an instruction has the effect of the result `r` and Overflow `ov` of its default. -/
theorem arith_default {op : ArithOp} {dst src : Reg} {s : State} {r : Nat} {ov : Bool} (hs : s.Inv)
    (hnum : DefaultNum s) (h : op ≠ .div ∨ s.reg src ≠ 0)
    (hr : (numDefault op (s.reg dst) (if op = .not then 0 else s.reg src)).1.toNat = r)
    (hov : (numDefault op (s.reg dst) (if op = .not then 0 else s.reg src)).2 = ov) :
    ∃ t, exec (arithInstr op dst src) s = .next t ∧ ResultEffect s t dst r ov := by
  obtain ⟨t, ht, heffect⟩ := arith_resultEffect (dst := dst) hs h
  rw [numResult, numOf_default hnum, hr, hov] at heffect
  exact ⟨t, ht, heffect⟩

section Numbers
variable (x y : Word)

theorem numSub_toNat : (numSub x y).1.toNat = (x.toNat + 65536 - y.toNat) % 65536 := by
  have hx := x.isLt
  have hy := y.isLt
  rw [numSub, u16Int_toNat]
  omega

theorem numDiv_toNat : (numDiv x y).1.toNat = x.toNat / y.toNat := by
  rw [numDiv, u16_toNat, Nat.mod_eq_of_lt (lt_of_le_of_lt (Nat.div_le_self ..) x.isLt)]

theorem numShr_toNat : (numShr x y).1.toNat = x.toNat / 2 ^ (y.toNat % 16) := by
  rw [numShr, u16_toNat, Nat.mod_eq_of_lt (lt_of_le_of_lt (Nat.div_le_self ..) x.isLt), shiftAmount]

theorem numNot_toNat : (numNot x).1.toNat = 65535 - x.toNat := by
  rw [numNot, u16_toNat, Nat.mod_eq_of_lt (by omega)]

end Numbers

/-- Settles O26: the default narrows the exact sum. -/
theorem addWrapsWithCarry : Obligations.AddWrapsWithCarry := by
  refine ⟨Stmt.encoded_of_encode (by decide), fun dst src s hs hnum => ?_⟩
  exact arith_default (op := .add) hs hnum (.inl nofun) (u16_toNat _) rfl

/-- Settles O27: the default narrows the exact difference, which is negative where Overflow is set. -/
theorem subWrapsWithBorrow : Obligations.SubWrapsWithBorrow := by
  refine ⟨Stmt.encoded_of_encode (by decide), fun dst src s hs hnum => ?_⟩
  exact arith_default (op := .sub) hs hnum (.inl nofun) (numSub_toNat ..) rfl

/-- Settles O28: the default narrows the exact product. -/
theorem mulKeepsTheLowHalf : Obligations.MulKeepsTheLowHalf := by
  refine ⟨Stmt.encoded_of_encode (by decide), fun dst src s hs hnum => ?_⟩
  exact arith_default (op := .mul) hs hnum (.inl nofun) (u16_toNat _) rfl

/-- Settles O29: the quotient fits, and a zero divisor is caught before the common step. -/
theorem divTruncatesOrFaults : Obligations.DivTruncatesOrFaults := by
  refine ⟨Stmt.encoded_of_encode (by decide), fun dst src s hs hnum => ⟨fun hsrc => ?quotient, fun hsrc => ?fault⟩⟩
  case quotient => exact arith_default (op := .div) hs hnum (.inr hsrc) (numDiv_toNat ..) rfl
  case fault => exact raisesOnly_of_exec (exec_div_zero hsrc)

/-- Settles O30: the default narrows the product with a power of 2. -/
theorem shlShiftsModuloSixteen : Obligations.ShlShiftsModuloSixteen := by
  refine ⟨Stmt.encoded_of_encode (by decide), fun dst src s hs hnum => ?_⟩
  exact arith_default (op := .shl) hs hnum (.inl nofun) (u16_toNat _) rfl

/-- Settles O31: the quotient by a power of 2 fits. -/
theorem shrShiftsModuloSixteen : Obligations.ShrShiftsModuloSixteen := by
  refine ⟨Stmt.encoded_of_encode (by decide), fun dst src s hs hnum => ?_⟩
  exact arith_default (op := .shr) hs hnum (.inl nofun) (numShr_toNat ..) rfl

/-- Settles O32: the bitwise operations on words are those on their numbers. -/
theorem bitwiseResultsClearOverflow : Obligations.BitwiseResultsClearOverflow := by
  refine ⟨Stmt.encoded_of_encode (by decide), Stmt.encoded_of_encode (by decide),
    Stmt.encoded_of_encode (by decide), fun dst src s hs hnum => ⟨?and, ?or, ?xor⟩⟩
  case and => exact arith_default (op := .and) hs hnum (.inl nofun) (BitVec.toNat_and ..) rfl
  case or => exact arith_default (op := .or) hs hnum (.inl nofun) (BitVec.toNat_or ..) rfl
  case xor => exact arith_default (op := .xor) hs hnum (.inl nofun) (BitVec.toNat_xor ..) rfl

/-- Settles O33: `Not` is the common step with its one register as destination. -/
theorem notComplements : Obligations.NotComplements := by
  refine ⟨Stmt.encoded_of_encode (by decide), fun r s hs hnum => ?_⟩
  exact arith_default (op := .not) (src := r) hs hnum (.inl nofun) (numNot_toNat _) rfl

/-- Settles O34: FL is the result itself when `setflags` writes the flags into it. -/
theorem resultIntoFlagsRegister : Obligations.ResultIntoFlagsRegister := by
  intro s res hflbit
  rw [writeResult_reg_fl, hflbit, if_pos rfl, resultFlags_default]

/-! ### Cmp -/

theorem setReg_fl_flag (s : State) (v : Word) (f : Flag) :
    (s.setReg .fl v).flag f = readFlag s.cfg.flbit v f := by
  rw [State.flag, reg_setReg_same, setReg_cfg]

/-- Settles O37: `Cmp` is one write of FL, with two of its flags replaced. -/
theorem cmpSetsTwoFlags : Obligations.CmpSetsTwoFlags := by
  refine ⟨Stmt.encoded_of_encode (by decide), fun left right s ⟨⟨_, hp, _⟩, _⟩ =>
    ⟨_, exec_cmp left right, ?compare, ?negative, ?overflow, fun k hk => ?others, setReg_onlyRegs s .fl _⟩⟩
  case compare | negative | overflow =>
    rw [setReg_fl_flag]
    exact readFlag_compareFlags hp ..
  case others => rw [reg_setReg_same]; exact bitAt_compareFlags_other _ _ _ hk

end Machine

end Sys2Proof
end

section
/-! SUPPORT. `Push` and `Pop` (43_stack.md), the stack discipline of a push and then a pop, and the conditional branches
(44_branch.md). -/

namespace Sys2Proof.Machine

open Sys2Proof.Stmt

/-! ### Stack -/

/-- The immediate is pushed with high byte 0 (43_stack.md R190). -/
theorem immWord_toNat (imm : Byte) : (immWord imm).toNat = imm.toNat := by
  rw [immWord, zext16, BitVec.toNat_setWidth, Nat.mod_eq_of_lt (by omega)]

/-- Settles O38: `Push` takes the two courses of a push of its zero-extended immediate. -/
theorem pushStoresTheZeroExtendedByte : Obligations.PushStoresTheZeroExtendedByte := by
  refine ⟨Stmt.encoded_of_encode (by decide), fun imm s hs => ⟨immWord imm, immWord_toNat imm, ?effect⟩⟩
  case effect => exact pushEffect_of_pushWord hs (fun _ => exec_push_of_ok) (fun _ => exec_push_of_error)

/-- Settles O40: the underflow test, the read and the write of the destination in their order. -/
theorem popLoadsFromTheNewTop : Obligations.PopLoadsFromTheNewTop := by
  refine ⟨Stmt.encoded_of_encode (by decide), fun r s =>
    ⟨fun hlt => raisesOnly_of_exec (exec_pop_of_lt hlt), fun deep => ?deep⟩⟩
  have hsp : (s.dropWord.reg .sp).toNat = (s.reg .sp).toNat - 2 := by
    have h := dropWord_reg_sp_toNat deep
    omega
  refine ⟨fun v hv => ⟨_, exec_pop_of_ok deep hv, reg_setReg_same .., fun hr => ?sp, fun q hq => ?regs,
      fun _ => rfl, ⟨rfl, rfl, rfl, rfl⟩, rfl⟩,
    fun f hf => ⟨_, exec_pop_of_error deep hf, rfl, hsp, fun q hq => ?faultRegs, fun _ => rfl, rfl, rfl, rfl, rfl⟩⟩
  case sp => rw [reg_setReg_ne _ _ _ _ hr.symm, hsp]
  case regs =>
    obtain ⟨hqr, hqsp⟩ : q ≠ r ∧ q ≠ .sp := by simpa using hq
    rw [reg_setReg_ne _ _ _ _ hqr, dropWord_reg_ne s hqsp]
  case faultRegs => exact dropWord_reg_ne s (List.ne_of_not_mem_cons hq)

section PushThenPop
variable {s : State} {v : Word}

theorem pushedWord_reg_sp_toNat (h : s.pushAddr ≤ 65533) : ((pushedWord s v).reg .sp).toNat = s.pushAddr + 2 := by
  rw [pushedWord, reg_setReg_same, u16_toNat, Nat.mod_eq_of_lt (by omega)]

/-- A pop reads where the last push wrote (43_stack.md R194 and R196). -/
theorem pushedWord_popAddr (h : s.pushAddr ≤ 65533) : (pushedWord s v).popAddr = s.pushAddr := by
  rw [State.popAddr, pushedWord_reg_sp_toNat h, Nat.add_sub_cancel]

theorem u16_pushAddr (s : State) : u16 s.pushAddr = s.reg .sp := BitVec.ofNat_toNat ..

/-- Dropping a pushed word leaves every register as it was before the push. -/
theorem dropWord_pushedWord_reg (h : s.pushAddr ≤ 65533) (r : Reg) : (pushedWord s v).dropWord.reg r = s.reg r := by
  by_cases hr : r = .sp
  · rw [hr, dropWord_reg_sp, pushedWord_popAddr h, u16_pushAddr]
  · rw [dropWord_reg_ne _ hr, pushedWord, reg_setReg_ne _ _ _ _ hr, storedWord_reg]

end PushThenPop

/-- Settles O41: the pop reads the word that the push stored, and drops SP to where it was. -/
theorem popReturnsWhatWasPushed : Obligations.PopReturnsWhatWasPushed := by
  rintro i v q s ⟨-, hm, -⟩ hq hi room hsp
  have hpush : exec i s = .next (pushedWord s v) := by
    obtain ⟨r, rfl, rfl⟩ | ⟨imm, rfl, hv⟩ := hi
    · exact exec_pushReg_of_ok (pushWord_of_lt room)
    · obtain rfl : v = immWord imm := BitVec.eq_of_toNat_eq (hv.trans (immWord_toNat imm).symm)
      exact exec_push_of_ok (pushWord_of_lt room)
  have hread : (pushedWord s v).readWord s.pushAddr = .ok v := storedWord_readWord v hm room
  have deep : 2 ≤ ((pushedWord s v).reg .sp).toNat := by
    rw [pushedWord_reg_sp_toNat hsp]
    omega
  have hpop := exec_pop_of_ok (r := q) deep ((pushedWord_popAddr hsp).symm ▸ hread)
  refine ⟨_, _, hpush, hpop, reg_setReg_same .., ?sp, hread, fun r hr => ?regs, storedWord_sameMemOutside v hm,
    ⟨rfl, rfl, rfl, rfl⟩, rfl⟩
  case sp => rw [reg_setReg_ne _ _ _ _ hq.symm, dropWord_pushedWord_reg hsp]
  case regs => rw [reg_setReg_ne _ _ _ _ (List.ne_of_not_mem_cons hr), dropWord_pushedWord_reg hsp]

/-! ### Conditional branches -/

/-- Settles O43: each of the two is `Jmp` or `Nop`, by the Compare flag. -/
theorem conditionalBranchesTestCompare : Obligations.ConditionalBranchesTestCompare := by
  refine ⟨Stmt.encoded_of_encode (by decide), Stmt.encoded_of_encode (by decide), fun off s => ?_⟩
  have taken := setReg_onlyRegs s .pc (branchTarget (s.reg .pc) off)
  have target : (((s.setReg .pc (branchTarget (s.reg .pc) off)).reg .pc).toNat : Int) =
      (((s.reg .pc).toNat : Int) + 2 * signed8 off) % 65536 := by
    rw [reg_setReg_same, branchTarget_toNat]
  have stays : OnlyRegs [.pc] s s := ⟨fun _ _ => rfl, fun _ => rfl, ⟨rfl, rfl, rfl, rfl⟩, rfl⟩
  cases hflag : s.flag .compare with
  | true => exact ⟨⟨_, by simp [exec_je, hflag], taken, target⟩, ⟨_, by simp [exec_jne, hflag], stays, rfl⟩⟩
  | false => exact ⟨⟨_, by simp [exec_je, hflag], stays, rfl⟩, ⟨_, by simp [exec_jne, hflag], taken, target⟩⟩

end Sys2Proof.Machine
end

section
/-! SUPPORT. Handlers (46_signal.md): a course run as a handler, by its first construct and after another course, and
what it keeps; what a handler sees fixes its values and answers. -/

namespace Sys2Proof.Machine

open Sys2Proof.Stmt

/-- A known handler is called by running its course. -/
theorem exec_signal_of_prog {s : State} {id : Byte} {p : HandlerProg} (h : s.handler id = some (.prog p)) :
    exec (.signal id) s = .next (s.runAsHandler id p).state :=
  exec_signal_of_some h

/-- Settles O46: `Signal` looks its handler up, and the course of the test table's handler is one write of `halted`. -/
theorem signalRunsTheRegisteredHandler : Obligations.SignalRunsTheRegisteredHandler := by
  refine ⟨Stmt.encoded_of_encode (by decide), fun id s => ⟨fun h => raisesOnly_of_exec (exec_signal_of_none h),
    fun h hid => ⟨exec_signal_of_some hid, callHandler_trace s id h, callHandler_cfg s id h⟩, fun hid => ?sets⟩⟩
  case sets => exact ⟨_, exec_signal_of_some hid, rfl, fun _ _ => rfl, fun _ => rfl, rfl, rfl⟩

/-! ### Values and questions -/

/-- A handler's values are fixed by what it sees and by the parameters. -/
theorem hostVal_congr {s t : State} (hv : t.view = s.view) (hc : t.cfg = s.cfg) (v : HostVal) :
    t.hostVal v = s.hostVal v := by
  obtain ⟨hregs, -, hmem⟩ : t.regs = s.regs ∧ t.halted = s.halted ∧ t.mem = s.mem := by simpa [State.view] using hv
  induction v with
  | lit n => rfl
  | reg r => simp only [State.hostVal, State.reg, hregs]
  | byte addr ih =>
    have hread (a : Nat) : t.readByte a = s.readByte a := readByte_congr hc (by rw [hmem])
    simp only [State.hostVal, ih, hread]
  | add x y ihx ihy | mul x y ihx ihy => simp only [State.hostVal, ihx, ihy]

/-- The answers to a handler's questions are fixed by what it sees and by the parameters. -/
theorem hostCond_congr {s t : State} (hv : t.view = s.view) (hc : t.cfg = s.cfg) (b : HostCond) :
    t.hostCond b = s.hostCond b := by
  obtain ⟨-, hhalted, -⟩ : t.regs = s.regs ∧ t.halted = s.halted ∧ t.mem = s.mem := by simpa [State.view] using hv
  induction b with
  | halted => simp only [State.hostCond, hhalted]
  | eq x y | lt x y => simp only [State.hostCond, State.hostCompare, hostVal_congr hv hc]
  | not x ih => simp only [State.hostCond, ih]
  | and x y ihx ihy => simp only [State.hostCond, ihx, ihy]

/-- Counting a call is not seen by the handler. -/
@[simp] theorem countDraw_hostCond (s : State) (b : HostCond) : s.countDraw.hostCond b = s.hostCond b :=
  hostCond_congr (s := s) (t := s.countDraw) rfl rfl b

section HostVal
variable {s : State} {x : HostVal} {a : Nat} (hx : s.hostVal x = .ok a)
include hx

theorem hostVal_byte_of_ok {b : Byte} (hb : s.readByte a = .ok b) : s.hostVal (.byte x) = .ok b.toNat := by
  simp [State.hostVal, hx, hb]

theorem hostVal_byte_of_ge (ha : s.memSize ≤ a) : s.hostVal (.byte x) = .error (.outOfBounds a) := by
  simp [State.hostVal, hx, readByte_error_iff.mpr ⟨ha, rfl⟩]

end HostVal

/-! ### Courses of one action -/

section OneAction
variable {s : State} {c a : Nat} {x : HostVal} (hx : s.hostVal x = .ok a)
include hx

theorem runHandler_writeByte_of_lt {y : HostVal} {n : Nat} (hy : s.hostVal y = .ok n) (ha : a < s.memSize) :
    s.runHandler c (.act (.writeByte x y) .done) = .done { s with mem := s.mem.write a (BitVec.ofNat 8 n) } c := by
  simp [State.runHandler, State.hostAct, hx, hy, State.writeByte, ha, Except.map]

theorem runHandler_writeByte_of_ge {y : HostVal} {n : Nat} (hy : s.hostVal y = .ok n) (ha : s.memSize ≤ a) :
    s.runHandler c (.act (.writeByte x y) .done) = .failed s (.outOfBounds a) := by
  simp [State.runHandler, State.hostAct, hx, hy, State.writeByte, not_lt.mpr ha, Except.map]

theorem runHandler_readByte_of_ok {r : Reg} {b : Byte} (hb : s.readByte a = .ok b) :
    s.runHandler c (.act (.setReg r (.byte x)) .done) = .done (s.setReg r (u16 b.toNat)) c := by
  simp [State.runHandler, State.hostAct, hostVal_byte_of_ok hx hb]

theorem runHandler_readByte_of_ge {r : Reg} (ha : s.memSize ≤ a) :
    s.runHandler c (.act (.setReg r (.byte x)) .done) = .failed s (.outOfBounds a) := by
  simp [State.runHandler, State.hostAct, hostVal_byte_of_ge hx ha]

end OneAction

/-! ### A course after another -/

section AndThen
variable {id : Byte} {s u : State} {p q : HandlerProg}

theorem runAsHandler_andThen_of_failed {f : CoreFault} (h : s.runAsHandler id p = .failed u f) :
    s.runAsHandler id (p.andThen q) = .failed u f := by
  rw [State.runAsHandler] at h ⊢
  rw [runHandler_andThen, h]

theorem runAsHandler_andThen_of_done {c : Nat} (h : s.runAsHandler id p = .done u c) :
    s.runAsHandler id (p.andThen q) = u.runHandler c q := by
  rw [State.runAsHandler] at h ⊢
  rw [runHandler_andThen, h]

/-- What the actions of a handler and the counting of its call keep holds where a course has run to completion. -/
theorem runAsHandler_keeps {P : State → Prop} {c : Nat}
    (hreg : ∀ s r v, P s → P (s.setReg r v))
    (hmem : ∀ s a b, a < s.memSize → P s → P { s with mem := s.mem.write a b })
    (hhalt : ∀ s b, P s → P { s with halted := b }) (hcount : ∀ s, P s → P s.countDraw)
    (h : s.runAsHandler id p = .done u c) (hs : P s) : P u := by
  rw [State.runAsHandler] at h
  obtain ⟨t, d, ht, hP⟩ | ⟨t, a, ht, -, -⟩ :=
    runHandler_keeps hreg hmem hhalt p s.countDraw (s.handlerChoice id) (hcount s hs) <;> rw [h] at ht <;> cases ht
  exact hP

theorem runAsHandler_memSize {c : Nat} (h : s.runAsHandler id p = .done u c) : u.memSize = s.memSize :=
  runAsHandler_keeps (P := fun t => t.memSize = s.memSize) (fun _ _ _ h => h) (fun _ _ _ _ h => h) (fun _ _ h => h)
    (fun _ h => h) h rfl

theorem runAsHandler_memOk {c : Nat} (h : s.runAsHandler id p = .done u c) (hs : MemOk s) : MemOk u :=
  runAsHandler_keeps (P := MemOk) (fun _ r v h => h.setReg r v) (fun _ _ b ha h => h.write ha b) (fun _ _ h => h)
    (fun _ h => h) h hs

end AndThen

/-- Settles O47: the last action starts where the course before it has ended, and is decided by its address there. -/
theorem handlerAccessesAreBoundsChecked : Obligations.HandlerAccessesAreBoundsChecked := by
  refine ⟨fun s x a hx => ⟨fun b hb => hostVal_byte_of_ok hx hb, hostVal_byte_of_ge hx⟩,
    fun id s u p q f hfail hid => ?failure, fun id s u p c x y a n hs hdone hx hy hid => ?write,
    fun id s u p c r x a hdone hx hid => ?read⟩
  case failure => rw [exec_signal_of_prog hid, runAsHandler_andThen_of_failed hfail, HandlerEnd.state]
  case write =>
    obtain ⟨-, hmem⟩ := hs
    obtain ⟨hm, -⟩ := runAsHandler_memOk hdone hmem
    rw [exec_signal_of_prog hid, runAsHandler_andThen_of_done hdone, ← runAsHandler_memSize hdone]
    rcases Nat.lt_or_ge a u.memSize with ha | ha
    · rw [runHandler_writeByte_of_lt hx hy ha]
      exact ⟨_, rfl, fun _ _ => rfl, ⟨rfl, rfl, rfl, rfl⟩,
        fun _ => ⟨write_readByte_same _ hm ha, write_sameMemOutside _ hm, rfl⟩, fun hge => by omega⟩
    · rw [runHandler_writeByte_of_ge hx hy ha]
      exact ⟨_, rfl, fun _ _ => rfl, ⟨rfl, rfl, rfl, rfl⟩, fun hlt => by omega, fun _ => ⟨fun _ => rfl, rfl⟩⟩
  case read =>
    rw [exec_signal_of_prog hid, runAsHandler_andThen_of_done hdone, ← runAsHandler_memSize hdone]
    rcases Nat.lt_or_ge a u.memSize with ha | ha
    · have hread : u.readByte a = .ok (u.mem.read a) := readByte_ok_iff.mpr ⟨ha, rfl⟩
      obtain ⟨hregs, hmem, hrest, hfault⟩ := setReg_onlyRegs u r (u16 (u.mem.read a).toNat)
      rw [runHandler_readByte_of_ok hx hread]
      refine ⟨_, rfl, hmem, hrest, fun b hb => ⟨?_, hregs, hfault⟩, fun hge => by omega⟩
      obtain rfl : u.mem.read a = b := by simpa [hread] using hb
      rw [HandlerEnd.state, reg_setReg_same, u16_toNat, Nat.mod_eq_of_lt (by omega)]
    · rw [runHandler_readByte_of_ge hx ha]
      refine ⟨_, rfl, fun _ => rfl, ⟨rfl, rfl, rfl, rfl⟩, fun b hb => ?_, fun _ => ⟨fun _ _ => rfl, rfl⟩⟩
      obtain ⟨hlt, -⟩ := readByte_ok_iff.mp hb
      omega

/-! ### Branches and choices -/

section Branches
variable {id : Byte} {s : State} {b : HostCond} {p q : HandlerProg}

theorem runAsHandler_ite_of_ok {yes : Bool} (h : s.hostCond b = .ok yes) :
    s.runAsHandler id (.ite b p q) = s.runAsHandler id (if yes then p else q) := by
  cases yes <;> simp [State.runAsHandler, State.runHandler, h]

theorem runAsHandler_ite_of_error {f : CoreFault} (h : s.hostCond b = .error f) :
    s.runAsHandler id (.ite b p q) = .failed s.countDraw f := by
  simp [State.runAsHandler, State.runHandler, h]

theorem runAsHandler_choose :
    ∃ c, s.runAsHandler id (.choose p q) = s.countDraw.runHandler c p ∨
      s.runAsHandler id (.choose p q) = s.countDraw.runHandler c q := by
  refine ⟨s.handlerChoice id / 2, ?_⟩
  rw [State.runAsHandler, State.runHandler]
  split
  · exact .inl rfl
  · exact .inr rfl

theorem runAsHandler_anyByte {a : Nat} (ha : a < s.memSize) :
    s.runAsHandler id (.act (.anyByte (.lit a)) .done) =
      .done { s.countDraw with mem := s.mem.write a (BitVec.ofNat 8 (s.handlerChoice id)) }
        (s.handlerChoice id / 256) := by
  simp [State.runAsHandler, State.runHandler, State.hostAct, State.hostVal, State.writeByte, ha, Except.map]

end Branches

/-- Settles O56: the course goes on by the answer, the choice or the free number, whatever these are. -/
theorem handlersBranchAndChoose : Obligations.HandlersBranchAndChoose := by
  refine fun id s => ⟨fun b p q hid => ⟨fun yes hyes => ?answer, fun f hf => ⟨hostCond_error hf, ?noAnswer⟩⟩,
    fun p q hid => ?choice, fun r hid => ?anyReg, fun a hs ha hid => ?anyByte, fun hid => ?asked⟩
  case answer => rw [exec_signal_of_prog hid, runAsHandler_ite_of_ok hyes]
  case noAnswer => rw [exec_signal_of_prog hid, runAsHandler_ite_of_error hf, HandlerEnd.state]
  case choice =>
    obtain ⟨c, h⟩ := runAsHandler_choose (id := id) (s := s) (p := p) (q := q)
    refine ⟨c, ?_⟩
    rw [exec_signal_of_prog hid]
    exact h.imp (fun h => by rw [h]) (fun h => by rw [h])
  case anyReg => exact ⟨_, exec_signal_of_some hid, setReg_onlyRegs s.countDraw r _⟩
  case anyByte =>
    obtain ⟨-, hm, -⟩ := hs
    have hexec := exec_signal_of_prog (p := .act (.anyByte (.lit a)) .done) hid
    rw [runAsHandler_anyByte ha] at hexec
    exact ⟨_, hexec, fun _ _ => rfl, write_sameMemOutside (s := s) _ hm, ⟨rfl, rfl, rfl, rfl⟩, rfl⟩
  case asked =>
    have hask : s.hostCond (.eq (.reg .a) (.lit 0)) = .ok (decide (s.reg .a = 0)) := by
      simp [State.hostCond, State.hostCompare, State.hostVal, BitVec.toNat_eq]
    rw [exec_signal_of_prog hid, runAsHandler_ite_of_ok hask]
    by_cases h : s.reg .a = 0
    · simp only [h]
      exact ⟨_, rfl, rfl, fun _ _ => rfl, fun _ => rfl, rfl, rfl, rfl⟩
    · simp only [h]
      exact ⟨_, rfl, rfl, fun _ _ => rfl, fun _ => rfl, rfl, rfl, rfl⟩

end Sys2Proof.Machine
end

section
/-! SUPPORT. Noninterference: a change of the state that no operation of an instruction can see commutes with every
instruction but `Signal`. It is used for a register that the instruction does not name (10_state.md section 1) and for
`trace` (10_state.md section 4), which handlers do not see either. -/

namespace Sys2Proof

/-- Writes of different entries commute. -/
theorem PerReg.set_comm {α : Type} (t : PerReg α) {r q : Reg} (h : q ≠ r) (v w : α) :
    (t.set r v).set q w = (t.set q w).set r v := by
  refine PerReg.ext_get fun x => ?_
  rw [PerReg.get_set, PerReg.get_set, PerReg.get_set, PerReg.get_set]
  by_cases hx : x = q
  · simp [hx, h]
  · simp [hx]

namespace Machine

open Sys2Proof.Stmt

/-! ### A change that is not seen -/

theorem setReg_comm (s : State) {r q : Reg} (h : q ≠ r) (v w : Word) :
    (s.setReg r v).setReg q w = (s.setReg q w).setReg r v := by
  simp only [State.setReg, PerReg.set_comm _ h]

/-- What an instruction goes on to after an operation that may fail: the state that it answers, or its fault. -/
def orRaise (s : State) : Except CoreFault State → Host.Outcome State Fault Refusal
  | .ok t => .next t
  | .error f => .next (s.raise f)

section OrRaise
variable (s : State)

theorem exec_push_eq (imm : Byte) : exec (.push imm) s = orRaise s (s.pushWord (immWord imm)) := by
  cases h : s.pushWord (immWord imm) with
  | ok t => exact exec_push_of_ok h
  | error f => exact exec_push_of_error h

theorem exec_pushReg_eq (r : Reg) : exec (.pushReg r) s = orRaise s (s.pushWord (s.reg r)) := by
  cases h : s.pushWord (s.reg r) with
  | ok t => exact exec_pushReg_of_ok h
  | error f => exact exec_pushReg_of_error h

theorem exec_load_eq (dst addr : Reg) :
    exec (.load dst addr) s = orRaise s ((s.readWord (s.regAddr addr)).map (s.setReg dst)) := by
  cases h : s.readWord (s.regAddr addr) with
  | ok v => exact exec_load_of_ok h
  | error f => exact exec_load_of_error h

theorem exec_store_eq (value addr : Reg) :
    exec (.store value addr) s = orRaise s (s.writeWord (s.regAddr addr) (s.reg value)) := by
  cases h : s.writeWord (s.regAddr addr) (s.reg value) with
  | ok t => exact exec_store_of_ok h
  | error f => exact exec_store_of_error h

theorem exec_pop_eq {s : State} (deep : 2 ≤ (s.reg .sp).toNat) (r : Reg) :
    exec (.pop r) s = orRaise s.dropWord ((s.readWord s.popAddr).map (s.dropWord.setReg r)) := by
  cases h : s.readWord s.popAddr with
  | ok v => exact exec_pop_of_ok deep h
  | error f => exact exec_pop_of_error deep h

end OrRaise

theorem dst_mem_operandRegs (op : ArithOp) (dst src : Reg) : dst ∈ operandRegs (arithInstr op dst src) := by
  cases op <;> exact List.mem_cons_self ..

theorem src_mem_operandRegs {op : ArithOp} (dst src : Reg) (h : op ≠ .not) :
    src ∈ operandRegs (arithInstr op dst src) := by
  cases op with
  | not => exact absurd rfl h
  | _ => exact List.mem_cons_of_mem _ (List.mem_singleton_self src)

/-- A change `g` of the state that reads and writes of the registers in `seen`, of memory and of the latch do not see
and keep. -/
structure Unseen (seen : Reg → Prop) (g : State → State) : Prop where
  reg : ∀ s q, seen q → (g s).reg q = s.reg q
  mem : ∀ s, (g s).mem = s.mem
  cfg : ∀ s, (g s).cfg = s.cfg
  setReg : ∀ s q v, seen q → (g s).setReg q v = g (s.setReg q v)
  setMem : ∀ s m, { g s with mem := m } = g { s with mem := m }
  raise : ∀ s f, (g s).raise f = g (s.raise f)

/-- A register is not seen where only other registers are read and written. -/
theorem unseen_setReg (r : Reg) (v : Word) : Unseen (· ≠ r) (fun s => s.setReg r v) where
  reg s q hq := reg_setReg_ne s r q v hq
  mem _ := rfl
  cfg _ := rfl
  setReg s _ w hq := setReg_comm s hq v w
  setMem _ _ := rfl
  raise _ _ := rfl

/-- The same state with `trace` set to `b`. -/
def State.withTrace (b : Bool) (s : State) : State := { s with trace := b }

/-- `trace` is not seen whichever registers are read and written (10_state.md R41). -/
theorem unseen_withTrace (b : Bool) : Unseen (fun _ => True) (State.withTrace b) where
  reg _ _ _ := rfl
  mem _ := rfl
  cfg _ := rfl
  setReg _ _ _ _ := rfl
  setMem _ _ := rfl
  raise _ _ := rfl

namespace Unseen

variable {seen : Reg → Prop} {g : State → State} (hg : Unseen seen g)
include hg

/-! ### The operations -/

theorem memSize (s : State) : (g s).memSize = s.memSize := congrArg Config.memSize (hg.cfg s)

theorem readByte (s : State) (a : Nat) : (g s).readByte a = s.readByte a :=
  readByte_congr (hg.cfg s) (by rw [hg.mem])

theorem readWord (s : State) (a : Nat) : (g s).readWord a = s.readWord a := by
  simp only [State.readWord, hg.readByte]

theorem storedWord (s : State) (a : Nat) (v : Word) : storedWord (g s) a v = g (storedWord s a v) := by
  rw [Machine.storedWord, hg.mem, hg.setMem, ← Machine.storedWord]

theorem writeWord (s : State) (a : Nat) (v : Word) : (g s).writeWord a v = (s.writeWord a v).map g := by
  obtain ⟨h, hwrite⟩ | ⟨h, hwrite⟩ | ⟨h, hwrite⟩ := writeWord_cases s a v <;> rw [hwrite] <;> rw [← hg.memSize] at h
  · rw [writeWord_of_lt v h, hg.storedWord]
    rfl
  · exact writeWord_of_succ_eq v h
  · exact writeWord_of_ge v h

theorem pushWord (hsp : seen .sp) (s : State) (v : Word) : (g s).pushWord v = (s.pushWord v).map g := by
  have haddr : (g s).pushAddr = s.pushAddr := congrArg BitVec.toNat (hg.reg s .sp hsp)
  rw [State.pushWord, State.pushWord, hg.writeWord, haddr]
  cases s.writeWord s.pushAddr v with
  | error f => rfl
  | ok t => exact congrArg Except.ok (hg.setReg t .sp _ hsp)

theorem writeResult (hfl : seen .fl) {dst : Reg} (hdst : seen dst) (s : State) (res : Word × Bool) :
    (g s).writeResult dst res = g (s.writeResult dst res) := by
  rw [State.writeResult, State.setFlags, hg.setReg s dst _ hdst, hg.cfg, hg.reg _ _ hfl, hg.setReg _ _ _ hfl]
  rfl

theorem flag (hfl : seen .fl) (s : State) (f : Flag) : (g s).flag f = s.flag f := by
  rw [State.flag, State.flag, hg.cfg, hg.reg s _ hfl]

/-! ### The instructions -/

theorem orRaise (s : State) (x : Except CoreFault State) : orRaise (g s) (x.map g) = mapNext g (orRaise s x) := by
  cases x with
  | ok t => rfl
  | error f => exact congrArg Host.Outcome.next (hg.raise s f)

/-- Reading a word into a register that is seen. -/
theorem map_setReg {r : Reg} (hr : seen r) (s : State) (x : Except CoreFault Word) :
    x.map ((g s).setReg r) = (x.map (s.setReg r)).map g := by
  cases x with
  | ok v => exact congrArg Except.ok (hg.setReg s r v hr)
  | error f => rfl

theorem numResult {op : ArithOp} {dst src : Reg} (hdst : seen dst) (hsrc : op ≠ .not → seen src) (s : State) :
    numResult op dst src (g s) = numResult op dst src s := by
  rw [Stmt.numResult, Stmt.numResult, hg.cfg, hg.reg s dst hdst]
  by_cases hop : op = .not
  · rw [if_pos hop, if_pos hop]
  · rw [if_neg hop, if_neg hop, hg.reg s src (hsrc hop)]

theorem exec_arith (hfl : seen .fl) {op : ArithOp} {dst src : Reg} (hdst : seen dst) (hsrc : op ≠ .not → seen src)
    (s : State) : exec (arithInstr op dst src) (g s) = mapNext g (exec (arithInstr op dst src) s) := by
  by_cases h : op = .div ∧ s.reg src = 0
  · obtain ⟨rfl, hzero⟩ := h
    have hzero' : (g s).reg src = 0 := (hg.reg s src (hsrc nofun)).trans hzero
    exact (exec_div_zero hzero').trans (by rw [arithInstr, exec_div_zero hzero, mapNext, hg.raise])
  · have h' : op ≠ .div ∨ (g s).reg src ≠ 0 := by
      by_cases hop : op = .div
      · subst hop
        exact .inr fun hzero => h ⟨rfl, (hg.reg s src (hsrc nofun)).symm.trans hzero⟩
      · exact .inl hop
    rw [Machine.exec_arith h', Machine.exec_arith (not_and_or.mp h), mapNext, hg.numResult hdst hsrc,
      hg.writeResult hfl hdst]

theorem exec_pop (hsp : seen .sp) {r : Reg} (hr : seen r) (s : State) :
    exec (.pop r) (g s) = mapNext g (exec (.pop r) s) := by
  have hreg : (g s).reg .sp = s.reg .sp := hg.reg s .sp hsp
  rcases Nat.lt_or_ge (s.reg .sp).toNat 2 with hlt | deep
  · rw [exec_pop_of_lt hlt, exec_pop_of_lt (hreg ▸ hlt), mapNext, hg.raise]
  · have hdrop : (g s).dropWord = g s.dropWord := by
      rw [State.dropWord, State.popAddr, hreg]
      exact hg.setReg s .sp _ hsp
    have haddr : (g s).popAddr = s.popAddr := by rw [State.popAddr, hreg, State.popAddr]
    rw [exec_pop_eq deep, exec_pop_eq (hreg ▸ deep), hdrop, haddr, hg.readWord, hg.map_setReg hr, hg.orRaise]

theorem branch (hpc : seen .pc) (s : State) (off : Byte) :
    (g s).setReg .pc (branchTarget ((g s).reg .pc) off) = g (s.setReg .pc (branchTarget (s.reg .pc) off)) := by
  rw [hg.reg s _ hpc, hg.setReg s _ _ hpc]

/-- A change that an instruction's own and implicit registers do not see commutes with the instruction. -/
theorem exec_comm (hsp : seen .sp) (hpc : seen .pc) (hfl : seen .fl) {i : Instr} (hops : ∀ q ∈ operandRegs i, seen q)
    (hi : i.mnemonic ≠ .signal) (s : State) : exec i (g s) = mapNext g (exec i s) := by
  cases i using casesOnArith with
  | arith op dst src =>
    exact hg.exec_arith hfl (hops dst (dst_mem_operandRegs op dst src))
      (fun hop => hops src (src_mem_operandRegs dst src hop)) s
  | nop => rfl
  | mov dst src =>
    have hdst : seen dst := hops dst (by simp [operandRegs, Instr.operands])
    have hsrc : seen src := hops src (by simp [operandRegs, Instr.operands])
    rw [exec_mov, exec_mov, mapNext, hg.reg s _ hsrc, hg.setReg s _ _ hdst]
  | cmp left right =>
    have hleft : seen left := hops left (by simp [operandRegs, Instr.operands])
    have hright : seen right := hops right (by simp [operandRegs, Instr.operands])
    rw [exec_cmp, exec_cmp, mapNext, hg.cfg, hg.reg s _ hfl, hg.reg s _ hleft, hg.reg s _ hright,
      hg.setReg s _ _ hfl]
  | push imm => rw [exec_push_eq, exec_push_eq, hg.pushWord hsp, hg.orRaise]
  | pushReg r =>
    have hr : seen r := hops r (by simp [operandRegs, Instr.operands])
    rw [exec_pushReg_eq, exec_pushReg_eq, hg.reg s _ hr, hg.pushWord hsp, hg.orRaise]
  | pop r => exact hg.exec_pop hsp (hops r (by simp [operandRegs, Instr.operands])) s
  | jmp off => rw [exec_jmp, exec_jmp, mapNext, hg.branch hpc]
  | je off =>
    rw [exec_je, exec_je, mapNext, hg.flag hfl, hg.branch hpc]
    split <;> rfl
  | jne off =>
    rw [exec_jne, exec_jne, mapNext, hg.flag hfl, hg.branch hpc]
    split <;> rfl
  | load dst addr =>
    have hdst : seen dst := hops dst (by simp [operandRegs, Instr.operands])
    have haddr : (g s).regAddr addr = s.regAddr addr :=
      congrArg BitVec.toNat (hg.reg s addr (hops addr (by simp [operandRegs, Instr.operands])))
    rw [exec_load_eq, exec_load_eq, haddr, hg.readWord, hg.map_setReg hdst, hg.orRaise]
  | store value addr =>
    have hvalue : seen value := hops value (by simp [operandRegs, Instr.operands])
    have haddr : (g s).regAddr addr = s.regAddr addr :=
      congrArg BitVec.toNat (hg.reg s addr (hops addr (by simp [operandRegs, Instr.operands])))
    rw [exec_store_eq, exec_store_eq, haddr, hg.reg s _ hvalue, hg.writeWord, hg.orRaise]
  | signal id => exact absurd rfl hi

end Unseen

/-- Settles O52: the registers that an instruction reads or writes are those it names, SP, PC and FL. -/
theorem unnamedRegistersDoNotMatter : Obligations.UnnamedRegistersDoNotMatter := by
  intro i s r v hr hops hi
  obtain ⟨hsp, hpc, hfl⟩ : Reg.sp ≠ r ∧ Reg.pc ≠ r ∧ Reg.fl ≠ r := by
    revert hr
    cases r <;> decide
  exact (unseen_setReg r v).exec_comm hsp hpc hfl (fun q hq hqr => hops (hqr ▸ hq)) hi s

/-! ### The debug-trace flag -/

section WithTrace
variable (b : Bool) (s : State)

@[simp] theorem withTrace_view : (s.withTrace b).view = s.view := rfl
@[simp] theorem withTrace_halted : (s.withTrace b).halted = s.halted := rfl
@[simp] theorem withTrace_fault : (s.withTrace b).fault = s.fault := rfl
@[simp] theorem withTrace_cfg : (s.withTrace b).cfg = s.cfg := rfl
@[simp] theorem withTrace_fetch : (s.withTrace b).fetch = s.fetch := (unseen_withTrace b).readWord s _
@[simp] theorem withTrace_advancePc : (s.withTrace b).advancePc = s.advancePc.withTrace b := rfl
@[simp] theorem withTrace_raise (f : CoreFault) : (s.withTrace b).raise f = (s.raise f).withTrace b := rfl
@[simp] theorem withTrace_handler (id : Byte) : (s.withTrace b).handler id = s.handler id := rfl

@[simp] theorem withTrace_hostVal (v : HostVal) : (s.withTrace b).hostVal v = s.hostVal v :=
  hostVal_congr (withTrace_view b s) (withTrace_cfg b s) v

@[simp] theorem withTrace_hostCond (q : HostCond) : (s.withTrace b).hostCond q = s.hostCond q :=
  hostCond_congr (withTrace_view b s) (withTrace_cfg b s) q

theorem withTrace_writeByte (a : Nat) (v : Byte) :
    (s.withTrace b).writeByte a v = (s.writeByte a v).map (State.withTrace b) := by
  obtain ⟨ha, hwrite⟩ | ⟨ha, hwrite⟩ := writeByte_cases s a v <;> rw [hwrite]
  · exact if_pos ha
  · exact if_neg (not_lt.mpr ha)

/-- An action of a handler neither sees nor writes `trace`. -/
theorem withTrace_hostAct (c : Nat) (x : HandlerAct) :
    (s.withTrace b).hostAct c x = (s.hostAct c x).map (Prod.map (State.withTrace b) id) := by
  cases x with
  | setReg r v =>
    simp only [State.hostAct, withTrace_hostVal]
    cases s.hostVal v <;> rfl
  | writeByte addr v =>
    simp only [State.hostAct, withTrace_hostVal, withTrace_writeByte]
    cases s.hostVal addr with
    | error f => rfl
    | ok a =>
      cases s.hostVal v with
      | error f => rfl
      | ok n => cases h : s.writeByte a (BitVec.ofNat 8 n) <;> simp [h, Except.map]
  | setHalted h => rfl
  | anyReg r => rfl
  | anyByte addr =>
    simp only [State.hostAct, withTrace_hostVal, withTrace_writeByte]
    cases s.hostVal addr with
    | error f => rfl
    | ok a => cases h : s.writeByte a (BitVec.ofNat 8 c) <;> simp [h, Except.map]

/-- The end of a course in the same state with `trace` set to `b`. -/
def HandlerEnd.withTrace (b : Bool) : HandlerEnd → HandlerEnd
  | .done s c => .done (s.withTrace b) c
  | .failed s f => .failed (s.withTrace b) f

theorem withTrace_runHandler (p : HandlerProg) (c : Nat) :
    (s.withTrace b).runHandler c p = (s.runHandler c p).withTrace b := by
  induction p generalizing s c with
  | done => rfl
  | act x p ih =>
    simp only [State.runHandler, withTrace_hostAct]
    cases s.hostAct c x with
    | error f => rfl
    | ok td => exact ih td.1 td.2
  | ite q yes no ihy ihn =>
    simp only [State.runHandler, withTrace_hostCond]
    cases s.hostCond q with
    | error f => rfl
    | ok answer =>
      cases answer with
      | true => exact ihy s c
      | false => exact ihn s c
  | choose p q ihp ihq =>
    simp only [State.runHandler]
    split
    · exact ihp s _
    · exact ihq s _

theorem withTrace_callHandler (id : Byte) (h : Handler) :
    (s.withTrace b).callHandler id h = (s.callHandler id h).withTrace b := by
  have hrun : (s.withTrace b).callHandler id h =
      ((s.countDraw.withTrace b).runHandler (s.handlerChoice id) (s.handlerProg id h)).state := by
    cases h <;> rfl
  rw [hrun, withTrace_runHandler, State.callHandler, State.runAsHandler]
  cases s.countDraw.runHandler (s.handlerChoice id) (s.handlerProg id h) <;> rfl

theorem withTrace_exec (i : Instr) : exec i (s.withTrace b) = mapNext (State.withTrace b) (exec i s) := by
  by_cases hi : i.mnemonic = .signal
  · obtain ⟨id, rfl⟩ : ∃ id, i = .signal id := by
      cases i with
      | signal id => exact ⟨id, rfl⟩
      | _ => cases hi
    cases hid : s.handler id with
    | none => rw [exec_signal_of_none hid, exec_signal_of_none (s := s.withTrace b) hid, mapNext, withTrace_raise]
    | some h =>
      rw [exec_signal_of_some hid, exec_signal_of_some (s := s.withTrace b) hid, mapNext, withTrace_callHandler]
  · exact (unseen_withTrace b).exec_comm trivial trivial trivial (fun _ _ => trivial) hi s

theorem withTrace_step : step (s.withTrace b) = mapNext (State.withTrace b) (step s) := by
  simp only [step, withTrace_fault, withTrace_halted, withTrace_fetch, withTrace_cfg, withTrace_advancePc,
    withTrace_exec]
  cases s.fault with
  | some f => rfl
  | none =>
    cases s.halted with
    | true => rfl
    | false =>
      cases s.fetch with
      | error f => rfl
      | ok w => cases hd : decode s.cfg.enc w <;> simp [hd, mapNext]

end WithTrace

/-- Settles O53: setting `trace` commutes with the fetch, the PC advance, the latch, every instruction and every
handler. -/
theorem traceIsNeverObserved : Obligations.TraceIsNeverObserved := fun s b => withTrace_step b s

end Machine

end Sys2Proof
end
